-- ==== Sys2Proof/Word.lean ====
section
/-! DEFINITION. The words of the remregs protocol engine: bytes, 16- and 32-bit values, the 6-bit operation code and the
10-bit register address (spec/00_scope.md R6, R8). Every value is unsigned; nothing sign-extends. -/

namespace Sys2Proof

/-- 8 bits, numbered 7 (most significant) down to 0 (R8). -/
abbrev Byte := BitVec 8

/-- A `u16` of R8. -/
abbrev Half := BitVec 16

/-- A `u32` of R8. -/
abbrev Long := BitVec 32

/-- The operation code field, OP_W = 6 bits (R6, R82). -/
abbrev OpCode := BitVec 6

/-- A register address, ADDR_W = 10 bits, 0..1023 (R6, R50). -/
abbrev RegAddr := BitVec 10

end Sys2Proof
end

