-- ==== Sys2Proof/Config.lean ====
section
/-! DEFINITION. What is fixed for this hardware (spec/00_scope.md R6), the open parameters (R7), the shapes of the
answers that TRANSPORT and HANDLER give to the engine's primitives (R11), and the free values: answers that nothing
constrains (spec/93_implementation_defined.md U7, U8), and the commands of an endless run (R330). -/

namespace Sys2Proof

/-- Open parameter (R7, U6): which numbers name a handler identity, beside 0. -/
opaque Config.namesHandler : Nat → Bool

/-- The parameter type HandlerId (R7, decision D15): decidable equality and nothing more. How many identities there are, one,
several or without end, is open, for nothing is known of `Config.namesHandler`. DESIGN CHOICE (log 1): an identity has a number
for its name, and 0 names one of them. -/
structure HandlerId where
  name  : Nat
  legal : name = 0 ∨ Config.namesHandler name = true
deriving DecidableEq, Repr

/-- What TRANSPORT answers to `RxRead()` (R11): a byte, or TIMEOUT. -/
inductive RxAnswer where
  | byte (b : Byte)
  | timeout
deriving DecidableEq, Repr, Inhabited

/-- What HANDLER answers to one call (R181): the claim bit, and what it leaves in the shared buffer, one value for each
kind a payload can have. The call's kind selects which one is returned (`Machine.answerPayload`), so an answer of
another kind cannot be written down. -/
structure HandlerAnswer where
  claimed : Bool
  u8      : Byte
  u16     : Half
  u32     : Long
  size    : Byte
  data    : Vector Byte 29
deriving DecidableEq, Repr, Inhabited

namespace Config

/-- N_SLOTS (R6). -/
abbrev nSlots : Nat := 16

/-- MAX_MB (R6). -/
abbrev maxMb : Nat := 29

/-- FILL_COUNT = MAX_MB + 5 (R6). -/
def fillCount : Nat := 34

/-- FILL_BYTE (R6). -/
def fillByte : Byte := 0xFF

/-- SYNC_REQ (R6). -/
def syncReq : Byte := 0xAA

/-- SYNC_CK_REQ (R6). -/
def syncCkReq : Byte := 0xA5

/-- SYNC_ACK (R6). -/
def syncAck : Byte := 0x55

/-- ACK (R6). -/
def ack : Byte := 0x06

/-- NAK (R6). -/
def nak : Byte := 0x0F

/-- The identity that 0 names: the operand of a table word, which has no bits for one (log 12). -/
def firstHandler : HandlerId := ⟨0, .inl rfl⟩

/-- The identity that a number names, and that of 0 where the number names none. -/
def identityNamed (n : Nat) : HandlerId :=
  if h : namesHandler n = true then ⟨n, .inr h⟩ else firstHandler

/-- Free value: a number (log 14). -/
opaque freeName : Nat

/-- Free value: what a command word carries beside CMD where the command has no operand (R95; log 14): any identity. -/
def freeOperand : HandlerId := identityNamed freeName

/-- Free value: CMD of the command that HOST issues at the n-th free draw (R5, R330; log 2). -/
opaque freeCmd : Nat → BitVec 3

/-- Free value: the name of that command's operand (R95; log 2). -/
opaque freeCmdName : Nat → Nat

/-- T_BYTE, the per-byte read timeout (R7, decision D14), in a unit of the reader's choice. No rule reads it (R328). -/
opaque tByte : Nat

/-- Free value: TRANSPORT's answer to `RxPending()` at the n-th free draw (U8). -/
opaque freePending : Nat → Bool

/-- Free value: TRANSPORT's answer to `RxRead()` at the n-th free draw (R64, U8). -/
opaque freeRx : Nat → RxAnswer

/-- Free value: HANDLER's answer at the n-th free draw (R181, U7). -/
opaque freeAnswer : Nat → HandlerAnswer

end Config

end Sys2Proof
end

