-- ==== Sys2Proof/Syntax.lean ====
section
/-! DEFINITION. The instructions: one constructor per row of spec/opcode_table.json. Three formats (spec/30_encoding.md):
SB, one byte read while UNSYNC (R81); HDR, a frame read while synchronized (R82, R84); HOST, a command on the local
port (R95). -/

namespace Sys2Proof

/-- One word on the host command port (R95): the 3-bit field CMD and the operand h. -/
structure HostWord where
  cmd : BitVec 3
  h   : HandlerId
deriving DecidableEq, Repr

inductive Instr where
  /-- SYNCREQ, byte 0xAA while UNSYNC (R112). -/
  | syncreq
  /-- SYNCCKREQ, byte 0xA5 while UNSYNC (R113). -/
  | syncckreq
  /-- DISCARD, any other byte while UNSYNC (R114). -/
  | discard (b : Byte)
  /-- RD8, op 0 (R200). -/
  | rd8 (addr : RegAddr)
  /-- RD16, op 1 (R201). -/
  | rd16 (addr : RegAddr)
  /-- RD32, op 2 (R202). -/
  | rd32 (addr : RegAddr)
  /-- RDMB, op 3 (R203). -/
  | rdmb (addr : RegAddr)
  /-- WR8, op 4, value U8(p0) (R204). -/
  | wr8 (addr : RegAddr) (v : Byte)
  /-- WR16, op 5, value U16(p0 ++ p1) (R205). -/
  | wr16 (addr : RegAddr) (v : Half)
  /-- WR32, op 6, value U32(p0 ++ p1 ++ p2 ++ p3) (R206). -/
  | wr32 (addr : RegAddr) (v : Long)
  /-- WRMB, op 7, with its data bytes d0..d(n-1) in arrival order; n is their number (R207). -/
  | wrmb (addr : RegAddr) (data : List Byte)
  /-- RSVD_OP8_15, op = 001ooo (R208). -/
  | rsvd8to15 (o : BitVec 3) (addr : RegAddr)
  /-- RSVD_OP16_31, op = 01oooo (R208). -/
  | rsvd16to31 (o : BitVec 4) (addr : RegAddr)
  /-- RSVD_OP32_63, op = 1ooooo (R208). -/
  | rsvd32to63 (o : BitVec 5) (addr : RegAddr)
  /-- RESYNC, the header 0xFF 0xFF (R209). -/
  | resync
  /-- RESET, CMD 0 (R117). -/
  | reset
  /-- POLL, CMD 1 (R110). -/
  | poll
  /-- PENDING, CMD 2 (R116). -/
  | pending
  /-- REGISTER h, CMD 3 (R172). -/
  | register (h : HandlerId)
  /-- UNREGISTER h, CMD 4 (R173). -/
  | unregister (h : HandlerId)
  /-- HOST_ILLEGAL_5, CMD 5 (R96). -/
  | hostIllegal5
  /-- HOST_ILLEGAL_6_7, CMD 11c (R96). -/
  | hostIllegal6to7 (c : BitVec 1)
deriving DecidableEq, Repr

end Sys2Proof
end

