-- ==== Sys2Proof/WellFormed.lean ====
section
/-! DEFINITION. Which terms of `Instr` are instructions. The fields' widths exclude most of what is none; three checks
remain: DISCARD is not one of the two handshake bytes (spec/30_encoding.md R81), the write-multibyte length is 0..29
(R87), and op 63 at address 0x3FF is the escape, never a reserved operation (R89). -/

namespace Sys2Proof

/-- The instruction is one that an encoding of the spec stands for. -/
def Instr.wellFormed : Instr → Bool
  | .syncreq => true
  | .syncckreq => true
  | .discard b => b != Config.syncReq && b != Config.syncCkReq
  | .rd8 _ => true
  | .rd16 _ => true
  | .rd32 _ => true
  | .rdmb _ => true
  | .wr8 _ _ => true
  | .wr16 _ _ => true
  | .wr32 _ _ => true
  | .wrmb _ data => decide (data.length ≤ Config.maxMb)
  | .rsvd8to15 _ _ => true
  | .rsvd16to31 _ _ => true
  | .rsvd32to63 o addr => !(o == 31 && addr == 0x3FF)
  | .resync => true
  | .reset => true
  | .poll => true
  | .pending => true
  | .register _ => true
  | .unregister _ => true
  | .hostIllegal5 => true
  | .hostIllegal6to7 _ => true

end Sys2Proof
end

