-- ==== Sys2Proof/Decode.lean ====
section
/-! DEFINITION. The decoder, total on any bytes and rejecting by name, and after it the encoder, both written from the
encoding tables of spec/30_encoding.md; then the opcode table itself as data, and the decoder of the table's words.
How a byte is read depends on the context (R80): `decodeSyncByte` while UNSYNC, `decodeFrame` while synchronized,
`decodeHost` on the host command port. -/

namespace Sys2Proof

/-- Why a frame's bytes are no instruction. -/
inductive DecodeError where
  /-- Fewer than the two header bytes (R82). -/
  | missingHeader
  /-- A write-multibyte header without its length byte (R86). -/
  | missingLength
  /-- A write-multibyte length byte above 29 (R87, R149). -/
  | oversizeLength (n : Byte)
  /-- Fewer payload bytes than the frame needs (R86). -/
  | missingPayload
deriving DecidableEq, Repr

/-! ### Bit fields and byte order -/

/-- op = B1 >> 2, six bits (R82). -/
def headerOp (b1 : Byte) : OpCode := (b1 >>> 2).setWidth 6

/-- addr = ((B1 & 0x03) << 8) | B2, ten bits (R82). -/
def headerAddr (b1 b2 : Byte) : RegAddr :=
  ((b1 &&& 0x03).setWidth 10 <<< 8) ||| b2.setWidth 10

/-- The resync escape is the pair 0xFF 0xFF and nothing else (R89, R143). -/
def isEscape (b1 b2 : Byte) : Bool := b1 == 0xFF && b2 == 0xFF

/-- B1 = (op << 2) | (addr >> 8) and B2 = addr & 0xFF (R83). -/
def headerBytes (op : OpCode) (addr : RegAddr) : List Byte :=
  [(op.setWidth 8 <<< 2) ||| (addr >>> 8).setWidth 8, addr.setWidth 8]

/-- The i-th payload byte. A frame never lacks one that is asked for. -/
def payloadByte (p : List Byte) (i : Nat) : Byte := p.getD i 0

/-- A 16-bit value from the wire, most significant byte first (R54). -/
def halfOfBytes (p : List Byte) : Half :=
  ((payloadByte p 0).setWidth 16 <<< 8) ||| (payloadByte p 1).setWidth 16

/-- A 32-bit value from the wire, most significant byte first (R54). -/
def longOfBytes (p : List Byte) : Long :=
  ((payloadByte p 0).setWidth 32 <<< 24) ||| ((payloadByte p 1).setWidth 32 <<< 16)
    ||| ((payloadByte p 2).setWidth 32 <<< 8) ||| (payloadByte p 3).setWidth 32

/-- `[v[15:8], v[7:0]]` (R54). -/
def bytesOfHalf (v : Half) : List Byte := [v.extractLsb' 8 8, v.extractLsb' 0 8]

/-- `[v[31:24], v[23:16], v[15:8], v[7:0]]` (R54). -/
def bytesOfLong (v : Long) : List Byte :=
  [v.extractLsb' 24 8, v.extractLsb' 16 8, v.extractLsb' 8 8, v.extractLsb' 0 8]

/-! ### Decoding -/

/-- Payload bytes after the header for every op but 7 (R86, R146). -/
def fixedPayload (op : OpCode) : Nat :=
  match op.toNat with
  | 4 => 1
  | 5 => 2
  | 6 => 4
  | _ => 0

/-- The instruction of a header that is not the escape, with its payload bytes (R85, R88). -/
def frameInstr (op : OpCode) (addr : RegAddr) (p : List Byte) : Instr :=
  match op.toNat with
  | 0 => .rd8 addr
  | 1 => .rd16 addr
  | 2 => .rd32 addr
  | 3 => .rdmb addr
  | 4 => .wr8 addr (payloadByte p 0)
  | 5 => .wr16 addr (halfOfBytes p)
  | 6 => .wr32 addr (longOfBytes p)
  | 7 => .wrmb addr p
  | n =>
    if n < 16 then .rsvd8to15 (op.extractLsb' 0 3) addr
    else if n < 32 then .rsvd16to31 (op.extractLsb' 0 4) addr
    else .rsvd32to63 (op.extractLsb' 0 5) addr

/-- A header with its n payload bytes at the front of the remaining bytes. -/
def takePayload (op : OpCode) (addr : RegAddr) (n : Nat) (rest : List Byte) :
    Except DecodeError (Instr × List Byte) :=
  if rest.length < n then .error .missingPayload
  else .ok (frameInstr op addr (rest.take n), rest.drop n)

/-- The frame at the front of the bytes, and the bytes after it (R84, R86, R89). -/
def decodeFrame : List Byte → Except DecodeError (Instr × List Byte)
  | [] => .error .missingHeader
  | [_] => .error .missingHeader
  | b1 :: b2 :: rest =>
    if isEscape b1 b2 then .ok (.resync, rest)
    else if headerOp b1 = 7 then
      match rest with
      | [] => .error .missingLength
      | n :: rest =>
        if n.toNat > Config.maxMb then .error (.oversizeLength n)
        else takePayload (headerOp b1) (headerAddr b1 b2) n.toNat rest
    else takePayload (headerOp b1) (headerAddr b1 b2) (fixedPayload (headerOp b1)) rest

/-- A byte read while UNSYNC (R81). -/
def decodeSyncByte (b : Byte) : Instr :=
  if b = Config.syncReq then .syncreq
  else if b = Config.syncCkReq then .syncckreq
  else .discard b

/-- A word on the host command port (R95, R96). The operand is ignored where the command has none. -/
def decodeHost (w : HostWord) : Instr :=
  match w.cmd.toNat with
  | 0 => .reset
  | 1 => .poll
  | 2 => .pending
  | 3 => .register w.h
  | 4 => .unregister w.h
  | 5 => .hostIllegal5
  | _ => .hostIllegal6to7 (w.cmd.extractLsb' 0 1)

/-- An encoded instruction: what stands where the engine reads its next instruction, in each of the three contexts. -/
inductive Encoded where
  | syncByte (b : Byte)
  | frame (bytes : List Byte)
  | host (w : HostWord)
deriving DecidableEq, Repr

/-- Decoding in all three contexts; the bytes left over come with the instruction. -/
def decode : Encoded → Except DecodeError (Instr × List Byte)
  | .syncByte b => .ok (decodeSyncByte b, [])
  | .frame bytes => decodeFrame bytes
  | .host w => .ok (decodeHost w, [])

/-! ### Encoding -/

/-- The words of an instruction (R81, R83, R84, R95). Where a host command has no operand, what the port
carries beside CMD is a free value. -/
def encode : Instr → Encoded
  | .syncreq => .syncByte Config.syncReq
  | .syncckreq => .syncByte Config.syncCkReq
  | .discard b => .syncByte b
  | .rd8 addr => .frame (headerBytes 0 addr)
  | .rd16 addr => .frame (headerBytes 1 addr)
  | .rd32 addr => .frame (headerBytes 2 addr)
  | .rdmb addr => .frame (headerBytes 3 addr)
  | .wr8 addr v => .frame (headerBytes 4 addr ++ [v])
  | .wr16 addr v => .frame (headerBytes 5 addr ++ bytesOfHalf v)
  | .wr32 addr v => .frame (headerBytes 6 addr ++ bytesOfLong v)
  | .wrmb addr data => .frame (headerBytes 7 addr ++ BitVec.ofNat 8 data.length :: data)
  | .rsvd8to15 o addr => .frame (headerBytes (8 ||| o.setWidth 6) addr)
  | .rsvd16to31 o addr => .frame (headerBytes (16 ||| o.setWidth 6) addr)
  | .rsvd32to63 o addr => .frame (headerBytes (32 ||| o.setWidth 6) addr)
  | .resync => .frame [0xFF, 0xFF]
  | .reset => .host ⟨0, Config.freeOperand⟩
  | .poll => .host ⟨1, Config.freeOperand⟩
  | .pending => .host ⟨2, Config.freeOperand⟩
  | .register h => .host ⟨3, h⟩
  | .unregister h => .host ⟨4, h⟩
  | .hostIllegal5 => .host ⟨5, Config.freeOperand⟩
  | .hostIllegal6to7 c => .host ⟨6 ||| c.setWidth 3, Config.freeOperand⟩

/-- The encoded instruction with more bytes after it on the wire. Only a frame is followed by bytes that the same read
context can see. -/
def Encoded.followedBy : Encoded → List Byte → Encoded
  | .frame bytes, rest => .frame (bytes ++ rest)
  | e, _ => e

/-! ### The opcode table -/

/-- The column "format" of spec/opcode_table.json. -/
inductive Format where
  | sb
  | hdr
  | host
deriving DecidableEq, Repr

/-- One row of spec/opcode_table.json. -/
structure OpcodeRow where
  mnemonic : String
  format   : Format
  pattern  : Nat
  mask     : Nat
  priority : Nat
deriving DecidableEq, Repr

/-- The SB rows (R81). -/
def syncRows : List OpcodeRow :=
  [⟨"SYNCREQ", .sb, 0xAA, 0xFF, 0⟩, ⟨"SYNCCKREQ", .sb, 0xA5, 0xFF, 0⟩, ⟨"DISCARD", .sb, 0x00, 0x00, 1⟩]

/-- The HDR rows (R88, R89). -/
def frameRows : List OpcodeRow :=
  [⟨"RD8", .hdr, 0x0000, 0xFC00, 1⟩, ⟨"RD16", .hdr, 0x0400, 0xFC00, 1⟩, ⟨"RD32", .hdr, 0x0800, 0xFC00, 1⟩,
   ⟨"RDMB", .hdr, 0x0C00, 0xFC00, 1⟩, ⟨"WR8", .hdr, 0x1000, 0xFC00, 1⟩, ⟨"WR16", .hdr, 0x1400, 0xFC00, 1⟩,
   ⟨"WR32", .hdr, 0x1800, 0xFC00, 1⟩, ⟨"WRMB", .hdr, 0x1C00, 0xFC00, 1⟩,
   ⟨"RSVD_OP8_15", .hdr, 0x2000, 0xE000, 1⟩, ⟨"RSVD_OP16_31", .hdr, 0x4000, 0xC000, 1⟩,
   ⟨"RSVD_OP32_63", .hdr, 0x8000, 0x8000, 1⟩, ⟨"RESYNC", .hdr, 0xFFFF, 0xFFFF, 0⟩]

/-- The HOST rows (R95, R96). -/
def hostRows : List OpcodeRow :=
  [⟨"RESET", .host, 0, 7, 0⟩, ⟨"POLL", .host, 1, 7, 0⟩, ⟨"PENDING", .host, 2, 7, 0⟩, ⟨"REGISTER", .host, 3, 7, 0⟩,
   ⟨"UNREGISTER", .host, 4, 7, 0⟩, ⟨"HOST_ILLEGAL_5", .host, 5, 7, 0⟩, ⟨"HOST_ILLEGAL_6_7", .host, 6, 6, 0⟩]

/-- All 22 rows. -/
def opcodeTable : List OpcodeRow := syncRows ++ frameRows ++ hostRows

/-- The row matches the word. -/
def OpcodeRow.accepts (r : OpcodeRow) (f : Format) (w : Nat) : Bool :=
  r.format == f && w &&& r.mask == r.pattern

/-- The row the table gives a word: lower priority numbers are tried first (R89). -/
def tableRow (f : Format) (w : Nat) : Option OpcodeRow :=
  match opcodeTable.find? (fun r => r.priority == 0 && r.accepts f w) with
  | some r => some r
  | none => opcodeTable.find? (fun r => r.accepts f w)

/-- The instruction's row in spec/opcode_table.json, by its mnemonic. -/
def Instr.mnemonic : Instr → String
  | .syncreq => "SYNCREQ"
  | .syncckreq => "SYNCCKREQ"
  | .discard _ => "DISCARD"
  | .rd8 _ => "RD8"
  | .rd16 _ => "RD16"
  | .rd32 _ => "RD32"
  | .rdmb _ => "RDMB"
  | .wr8 _ _ => "WR8"
  | .wr16 _ _ => "WR16"
  | .wr32 _ _ => "WR32"
  | .wrmb _ _ => "WRMB"
  | .rsvd8to15 _ _ => "RSVD_OP8_15"
  | .rsvd16to31 _ _ => "RSVD_OP16_31"
  | .rsvd32to63 _ _ => "RSVD_OP32_63"
  | .resync => "RESYNC"
  | .reset => "RESET"
  | .poll => "POLL"
  | .pending => "PENDING"
  | .register _ => "REGISTER"
  | .unregister _ => "UNREGISTER"
  | .hostIllegal5 => "HOST_ILLEGAL_5"
  | .hostIllegal6to7 _ => "HOST_ILLEGAL_6_7"

/-! ### Words as the table numbers them -/

/-- Bytes after the header when every one of them is zero: the payload, or a write-multibyte length byte 0. -/
def zeroTail (op : OpCode) : List Byte :=
  if op = 7 then [0] else List.replicate (fixedPayload op) 0

/-- The bytes on the wire of a 16-bit table word: H[15:8] is B1 and comes first (R82); what follows is zero. -/
def tableFrame (w : Nat) : List Byte :=
  let b1 := BitVec.ofNat 8 (w / 256)
  let b2 := BitVec.ofNat 8 w
  b1 :: b2 :: (if isEscape b1 b2 then [] else zeroTail (headerOp b1))

/-- Where a table word stands. A row of one byte or less is a host command (3 bits) or a sync byte (8 bits); the table's
two kinds share the numbers 0..7, and there the word is the command. DESIGN CHOICE, safe: it concerns this map only, the
sync bytes 0..7 are discarded by `decodeSyncByte` as R114 says (log 12). A REGISTER or UNREGISTER word has no bits
for its operand: it is the identity named 0, and the other commands ignore it. -/
def encodedOfTableWord (nbits w : Nat) : Encoded :=
  if nbits ≤ 8 then
    if nbits < 8 ∨ w < 8 then .host ⟨BitVec.ofNat 3 w, Config.firstHandler⟩
    else .syncByte (BitVec.ofNat 8 w)
  else .frame (tableFrame w)

/-- The instruction the decoder reads from a word of the opcode table. -/
def decodeTableWord (nbits w : Nat) : Option Instr :=
  match decode (encodedOfTableWord nbits w) with
  | .ok (i, _) => some i
  | .error _ => none

end Sys2Proof
end

