-- ==== Sys2Proof/Machine/State.lean ====
section
/-! DEFINITION. The state of the engine as plain data: what spec/10_state.md gives it (R20 to R33), the trace that is the
model's observation (spec/00_scope.md R12), and what stands for the outside: the coming commands of HOST and the coming
answers of TRANSPORT and HANDLER (R5). -/

namespace Sys2Proof.Machine

/-- The sync state register S.SYNC (R22). Value 3 is never written and has no constructor. -/
inductive SyncState where
  | unsync
  | sync
  | syncCk
deriving DecidableEq, Repr

/-- The kinds of a payload value (R10). -/
inductive Kind where
  | none
  | u8
  | u16
  | u32
  | mb
deriving DecidableEq, Repr

/-- A payload value (R10). `size` is 8 bits wide; its legal values are 0..29 (R26). -/
inductive Payload where
  | none
  | u8 (v : Byte)
  | u16 (v : Half)
  | u32 (v : Long)
  | mb (size : Byte) (data : Vector Byte 29)
deriving DecidableEq, Repr

/-- The step of the poll in progress, S.PHASE (R30). -/
inductive Phase where
  | idle
  | syncByte
  | hdr1
  | hdr2
  | len
  | data
  | dispatch
  | respond
  | flush
deriving DecidableEq, Repr

/-- The frame registers (R29). -/
structure FrameRegs where
  b1   : Byte
  b2   : Byte
  op   : OpCode
  addr : RegAddr
  len  : Byte
  cnt  : Nat
  raw  : Vector Byte 29
deriving DecidableEq, Repr

/-- The error causes (R280). They name a cause in the model; no state element records one. -/
inductive Cause where
  | reset
  | timeout
  | protocolViolation
  | unclaimed
  | unrecognizedOp
  | oversizeLength
  | oversizeRead
deriving DecidableEq, Repr

/-- The two forms of desync recovery (R263). -/
inductive DesyncForm where
  | forced
  | triggered
deriving DecidableEq, Repr

/-- The result of a host command (R95): none, one bit, or five bits. -/
inductive CommandResult where
  | none
  | pending (b : Bool)
  | code (v : BitVec 5)
deriving DecidableEq, Repr

/-- One item of the observation (R12): a host command, one of the events of R11, or a command's result. -/
inductive TraceItem where
  | command (i : Instr)
  | pend (b : Bool)
  | rx (b : Byte)
  | rxTimeout
  | tx (b : Byte)
  | call (slot : Fin 16) (h : HandlerId) (op : OpCode) (addr : RegAddr) (plIn : Payload) (claimed : Bool)
      (plOut : Payload)
  | result (r : CommandResult)
deriving DecidableEq, Repr

/-- A coming answer of HANDLER. That a call never returns breaks HANDLER's duty (R327); U13 calls it stuck. -/
inductive HandlerReply where
  | returns (a : HandlerAnswer)
  | neverReturns
deriving DecidableEq, Repr

/-- Why the machine stops. -/
inductive Fault where
  /-- A handler call that never returns hangs the POLL (R327; U13: "stuck"). Raised by a read or a write whose next
  scripted reply is `neverReturns`. Safe: nothing is claimed of such a run but that it stops (log 5). -/
  | handlerNeverReturned
  /-- A step that starts in P_DISPATCH, P_RESPOND or P_FLUSH: the spec gives no register that says how far that phase has
  come, and no command leaves the engine there. Raised by `continuePoll`. Safe: no reachable state has such a phase (log 8). -/
  | noResumePoint
deriving DecidableEq, Repr

/-- Why an instruction has no meaning. -/
inductive Refusal where
  /-- The instruction of this mnemonic is not modelled. No arm of `exec` answers so. Safe. -/
  | notModelled (mnemonic : String)
deriving DecidableEq, Repr

structure State where
  /-- S.SYNC (R22). -/
  sync : SyncState
  /-- S.TMO (R24). -/
  tmo : Bool
  /-- S.PB (R25). -/
  pb : Payload
  /-- S.SLOT[0..15] (R28). -/
  slots : Vector (Option HandlerId) 16
  /-- S.PHASE (R30). -/
  phase : Phase
  /-- F.* (R29). -/
  frame : FrameRegs
  /-- The observation so far, oldest item first (R12). -/
  trace : List TraceItem
  /-- The commands HOST will issue, next one first (R5). -/
  hostQueue : List HostWord
  /-- Beyond the queue's end HOST goes on without end, with free commands (R330: a run may be infinite); else it issues no
  more (a finite run). -/
  hostGoesOn : Bool
  /-- TRANSPORT's coming answers to RxPending (R11); when it is empty, answers are free values. -/
  pendScript : List Bool
  /-- TRANSPORT's coming answers to RxRead (R11, R32); when it is empty, answers are free values. -/
  rxScript : List RxAnswer
  /-- HANDLER's coming answers (R181); when it is empty, answers are free values. -/
  replyScript : List HandlerReply
  /-- How many free values have been drawn: the index of the next one. -/
  draws : Nat
deriving DecidableEq, Repr

/-- Frame registers at reset. R29 leaves them unspecified; all zero is a DESIGN CHOICE, unsafe (log 9). -/
def FrameRegs.reset : FrameRegs where
  b1 := 0
  b2 := 0
  op := 0
  addr := 0
  len := 0
  cnt := 0
  raw := Vector.replicate 29 0

/-- The trace of a RESET command: the command, 34 times Tx(0xFF), no result (R310, R95). -/
def resetTrace : List TraceItem :=
  .command .reset :: (List.replicate Config.fillCount (.tx Config.fillByte) ++ [.result .none])

/-- The state right after RESET (R33, R310). The scripts, the queue and the draw counter are the model's own; that they
are empty and 0 is a DESIGN CHOICE (logs 2, 3, 4). -/
def State.reset : State where
  sync := .unsync
  tmo := false
  pb := .none
  slots := Vector.replicate 16 none
  phase := .idle
  frame := FrameRegs.reset
  trace := resetTrace
  hostQueue := []
  hostGoesOn := false
  pendScript := []
  rxScript := []
  replyScript := []
  draws := 0

end Sys2Proof.Machine
end

