-- ==== Sys2Proof/Machine/Operands.lean ====
section
/-! DEFINITION. Operand forms: the payload values, their kinds, and how a payload is built from wire bytes
(spec/00_scope.md R10, spec/30_encoding.md R85); the numeric codes of the spec's enumerations (R22, R30, R280). -/

namespace Sys2Proof.Machine

/-- `kind(op)` (R10). -/
def kindOf (op : OpCode) : Kind :=
  match op.toNat with
  | 0 => .u8
  | 1 => .u16
  | 2 => .u32
  | 3 => .mb
  | 4 => .u8
  | 5 => .u16
  | 6 => .u32
  | 7 => .mb
  | _ => .none

/-- 29 zero bytes. -/
def zeroData : Vector Byte 29 := Vector.replicate 29 0

/-- `Cleared(k)`: the variant of kind k with every field zero (R10). -/
def cleared : Kind → Payload
  | .none => .none
  | .u8 => .u8 0
  | .u16 => .u16 0
  | .u32 => .u32 0
  | .mb => .mb 0 zeroData

/-- The tag of a payload value (R10). -/
def Payload.kind : Payload → Kind
  | .none => .none
  | .u8 _ => .u8
  | .u16 _ => .u16
  | .u32 _ => .u32
  | .mb _ _ => .mb

/-- The payload a handler returns to a call of kind k: the call's kind is kept (R181, D16). -/
def answerPayload (a : HandlerAnswer) : Kind → Payload
  | .none => .none
  | .u8 => .u8 a.u8
  | .u16 => .u16 a.u16
  | .u32 => .u32 a.u32
  | .mb => .mb a.size a.data

/-- Bytes written at data index i and above (R9, R53). A byte at index 29 or above would be dropped; no rule writes one. -/
def memWrite : Vector Byte 29 → Nat → List Byte → Vector Byte 29
  | d, _, [] => d
  | d, i, b :: bs => memWrite (d.setIfInBounds i b) (i + 1) bs

/-- n bytes from data index i (R9, R53). -/
def memRead (d : Vector Byte 29) (i n : Nat) : List Byte := (d.toList.drop i).take n

/-- `MB(n, data)` of n payload bytes, zero from index n on (R153). -/
def mbOfBytes (p : List Byte) : Payload := .mb (BitVec.ofNat 8 p.length) (memWrite zeroData 0 p)

/-- The bytes after the header that are payload: F.LEN of them for op 7, else fixed by op (R146). -/
def payloadNeed (f : FrameRegs) : Nat :=
  if f.op = 7 then f.len.toNat else fixedPayload f.op

/-- The encoding of S.SYNC (R22). -/
def SyncState.code : SyncState → BitVec 2
  | .unsync => 0
  | .sync => 1
  | .syncCk => 2

/-- The encoding of S.PHASE (R30). -/
def Phase.code : Phase → Nat
  | .idle => 0
  | .syncByte => 1
  | .hdr1 => 2
  | .hdr2 => 3
  | .len => 4
  | .data => 5
  | .dispatch => 6
  | .respond => 7
  | .flush => 8

/-- The cause codes (R280). -/
def Cause.code : Cause → Nat
  | .reset => 0
  | .timeout => 1
  | .protocolViolation => 2
  | .unclaimed => 3
  | .unrecognizedOp => 4
  | .oversizeLength => 5
  | .oversizeRead => 6

end Sys2Proof.Machine
end

