-- ==== Sys2Proof/Machine/Flags.lean ====
section
/-! DEFINITION. The one flag, S.TMO (spec/10_state.md R24). -/

namespace Sys2Proof.Machine

/-- What an `RxRead` writes to S.TMO: 1 on TIMEOUT, 0 on a byte (R11, R24). -/
def tmoOf : RxAnswer → Bool
  | .byte _ => false
  | .timeout => true

end Sys2Proof.Machine
end

