-- ==== Sys2Proof/Machine/Ops.lean ====
section
/-! DEFINITION. The shared operations: the interface primitives of spec/00_scope.md R11, the exception of this hardware
(desync recovery, spec/45_desync_recovery.md R263, spec/60_exceptions.md R288) and the way out of it (the handshake,
R289), the end of a poll (R110) and a host command's result (R95). -/

namespace Sys2Proof.Machine

/-! ### Trace and single writes -/

/-- Items appended to the observation, in the order they happen (R12). -/
def State.observe (items : List TraceItem) (s : State) : State := { s with trace := s.trace ++ items }

/-- S.PHASE <- p (R30). -/
def State.setPhase (p : Phase) (s : State) : State := { s with phase := p }

/-- S.PB <- p (R25). -/
def State.setPb (p : Payload) (s : State) : State := { s with pb := p }

/-- S.SYNC <- v (R22). -/
def State.setSync (v : SyncState) (s : State) : State := { s with sync := v }

/-- F.* <- f (R29). -/
def State.setFrame (f : FrameRegs) (s : State) : State := { s with frame := f }

/-! ### Interface primitives -/

/-- `RxPending()`: the next scripted answer, else a free value. Consumes no byte and leaves S.TMO alone (R11). -/
def rxPending (s : State) : Bool × State :=
  match s.pendScript with
  | b :: q => (b, { s with pendScript := q, trace := s.trace ++ [.pend b] })
  | [] =>
    let b := Config.freePending s.draws
    (b, { s with draws := s.draws + 1, trace := s.trace ++ [.pend b] })

/-- The event of an `RxRead` (R12). -/
def rxEvent : RxAnswer → TraceItem
  | .byte b => .rx b
  | .timeout => .rxTimeout

/-- `RxRead()`: the next scripted answer, else a free value; writes S.TMO (R11, R24). -/
def rxRead (s : State) : RxAnswer × State :=
  match s.rxScript with
  | r :: q => (r, { s with rxScript := q, tmo := tmoOf r, trace := s.trace ++ [rxEvent r] })
  | [] =>
    let r := Config.freeRx s.draws
    (r, { s with draws := s.draws + 1, tmo := tmoOf r, trace := s.trace ++ [rxEvent r] })

/-- `TxWrite` of each byte in turn; it never fails (R11). -/
def txWrite (bytes : List Byte) (s : State) : State := s.observe (bytes.map .tx)

/-- HANDLER's next answer: scripted, else a free value (R181). -/
def nextReply (s : State) : HandlerReply × State :=
  match s.replyScript with
  | r :: q => (r, { s with replyScript := q })
  | [] => (.returns (Config.freeAnswer s.draws), { s with draws := s.draws + 1 })

/-- `HCall(i, h, op, addr, S.PB)` and the write of S.PB with what it returns (R181 to R183); `none` if the call never
returns (R327). -/
def hCall (i : Fin 16) (h : HandlerId) (op : OpCode) (addr : RegAddr) (s : State) : Option (Bool × State) :=
  match nextReply s with
  | (.returns a, s1) =>
    let pl := answerPayload a s.pb.kind
    some (a.claimed, (s1.setPb pl).observe [.call i h op addr s.pb a.claimed pl])
  | (.neverReturns, _) => none

/-! ### Desync recovery and the handshake -/

/-- 34 × Tx(0xFF) (R263). -/
def flood : List Byte := List.replicate Config.fillCount Config.fillByte

/-- `Desync(form, cause)` (R263): the flood if forced or synchronized, then S.SYNC <- UNSYNC. The cause is sent nowhere
and recorded nowhere (R280); nothing is saved (R288). -/
def desync (form : DesyncForm) (_cause : Cause) (s : State) : State :=
  if form = .forced ∨ s.sync ≠ .unsync then
    (txWrite flood (s.setPhase .flush)).setSync .unsync
  else s.setSync .unsync

/-- `TxWrite(0x55); S.SYNC <- v`: the way back from UNSYNC (R112, R113, R289). -/
def handshake (v : SyncState) (s : State) : State := (txWrite [Config.syncAck] s).setSync v

/-! ### Ends -/

/-- The result of a host command, once its last event has been performed (R12, R13). -/
def finishCommand (r : CommandResult) (s : State) : State := s.observe [.result r]

/-- The end of a poll: S.PHASE <- P_IDLE, and POLL returns no result (R110). -/
def endPoll (s : State) : State := finishCommand .none (s.setPhase .idle)

end Sys2Proof.Machine
end

