-- ==== Sys2Proof/Machine/HostCommands.lean ====
section
/-! DEFINITION. The host commands but REGISTER and UNREGISTER (spec/40_sync.md R110, R116, R117; spec/30_encoding.md
R95, R96). -/

namespace Sys2Proof.Machine

/-- RESET (R117). The frame registers are not written; RX stays as it is (R262). -/
def resetEngine (s : State) : State :=
  finishCommand .none
    ((desync .forced .reset
      { s with slots := Vector.replicate 16 none, pb := .none, tmo := false }).setPhase .idle)

/-- POLL up to its first read (R110): nothing pending ends it; else the poll stands at the byte read of R111 or at the
first header byte of R140. The rest of the poll is `continuePoll`: the same step runs it (log 7). -/
def enterPoll (s : State) : State :=
  let (b, s1) := rxPending s
  if b then s1.setPhase (if s1.sync = .unsync then .syncByte else .hdr1)
  else finishCommand .none s1

/-- PENDING (R116). -/
def askPending (s : State) : State :=
  let (b, s1) := rxPending s
  finishCommand (.pending b) s1

/-- ILLEGAL (R96). -/
def illegalCode : BitVec 5 := 0x1F

/-- RESET (R117). -/
def execReset (s : State) : Host.Outcome State Fault Refusal := .next (resetEngine s)

/-- POLL (R110). -/
def execPoll (s : State) : Host.Outcome State Fault Refusal := .next (enterPoll s)

/-- PENDING (R116). -/
def execPending (s : State) : Host.Outcome State Fault Refusal := .next (askPending s)

/-- CMD 5 (R96). -/
def execHostIllegal5 (s : State) : Host.Outcome State Fault Refusal := .next (finishCommand (.code illegalCode) s)

/-- CMD 6 and 7 (R96). -/
def execHostIllegal6to7 (_c : BitVec 1) (s : State) : Host.Outcome State Fault Refusal :=
  .next (finishCommand (.code illegalCode) s)

end Sys2Proof.Machine
end

