-- ==== Sys2Proof/Machine/Encoder.lean ====
section
/-! DEFINITION. The response encoder (spec/44_response_encoder.md R230 to R241). -/

namespace Sys2Proof.Machine

/-- `EncodeWrite()`: ACK and nothing more (R231). -/
def encodeWrite (s : State) : State := txWrite [Config.ack] (s.setPhase .respond)

/-- NAK and nothing more; the cause is not sent (R236 to R238, R280). -/
def encodeNak (_cause : Cause) (s : State) : State := txWrite [Config.nak] (s.setPhase .respond)

/-- The bytes of a claimed read's result (R232 to R235), or the cause for which it is refused (R236). -/
def readBytes : Payload → Except Cause (List Byte)
  | .none => .ok []
  | .u8 v => .ok [v]
  | .u16 v => .ok (bytesOfHalf v)
  | .u32 v => .ok (bytesOfLong v)
  | .mb size data =>
    if size.toNat > Config.maxMb then .error .oversizeRead
    else .ok (size :: memRead data 0 size.toNat)

/-- `EncodeRead(op, claimed)` (R230). The kind of S.PB is `kind(op)`, so it stands for op. -/
def encodeRead (claimed : Bool) (s : State) : State :=
  if claimed then
    match readBytes s.pb with
    | .ok bytes => txWrite (Config.ack :: bytes) (s.setPhase .respond)
    | .error cause => encodeNak cause s
  else encodeNak .unclaimed s

/-- `EncodeUnrecognized()` (R238). -/
def encodeUnrecognized (s : State) : State := encodeNak .unrecognizedOp s

end Sys2Proof.Machine
end

