-- ==== Sys2Proof/Machine/Registry.lean ====
section
/-! DEFINITION. The callback table: REGISTER, UNREGISTER and the two dispatch modes (spec/42_callback_registry.md). -/

namespace Sys2Proof.Machine

/-! ### Slot order -/

/-- The occupied slots with their handlers, in slot order (R171). -/
def occupied (slots : Vector (Option HandlerId) 16) : List (Fin 16 × HandlerId) :=
  (List.finRange 16).filterMap fun i => slots[i].map fun h => (i, h)

/-- The lowest-indexed slot that holds v, empty or a handler (R171). -/
def firstSlot (slots : Vector (Option HandlerId) 16) (v : Option HandlerId) : Option (Fin 16) :=
  (List.finRange 16).find? fun i => slots[i] == v

/-- FULL and NOT_FOUND (R95). -/
def noSlot : BitVec 5 := 0x10

/-- The lowest-indexed slot that holds `old` gets `new`, and its index is the result; with none, nothing changes and the
result is 0x10 (R172, R173). -/
def replaceFirst (old new : Option HandlerId) (s : State) : State :=
  match firstSlot s.slots old with
  | some i => finishCommand (.code (BitVec.ofNat 5 i.val)) { s with slots := s.slots.set i new }
  | none => finishCommand (.code noSlot) s

/-- REGISTER h (R172). -/
def execRegister (h : HandlerId) (s : State) : Host.Outcome State Fault Refusal :=
  .next (replaceFirst none (some h) s)

/-- UNREGISTER h (R173). -/
def execUnregister (h : HandlerId) (s : State) : Host.Outcome State Fault Refusal :=
  .next (replaceFirst (some h) none s)

/-! ### Dispatch -/

/-- Every slot of the list is called, in order; claim bits are discarded (R184). -/
def callAll (op : OpCode) (addr : RegAddr) : List (Fin 16 × HandlerId) → State → Option State
  | [], s => some s
  | (i, h) :: rest, s =>
    match hCall i h op addr s with
    | some (_, s1) => callAll op addr rest s1
    | none => none

/-- The slots of the list are called, in order, up to and including the first that claims (R185). -/
def callFirst (op : OpCode) (addr : RegAddr) : List (Fin 16 × HandlerId) → State → Option (Bool × State)
  | [], s => some (false, s)
  | (i, h) :: rest, s =>
    match hCall i h op addr s with
    | some (true, s1) => some (true, s1)
    | some (false, s1) => callFirst op addr rest s1
    | none => none

/-- `DispatchAll(op, addr)` (R184). No command can run in between, so the slots are those at its start (R187). -/
def dispatchAll (op : OpCode) (addr : RegAddr) (s : State) : Option State :=
  callAll op addr (occupied s.slots) (s.setPhase .dispatch)

/-- `DispatchFirst(op, addr)` (R185). -/
def dispatchFirst (op : OpCode) (addr : RegAddr) (s : State) : Option (Bool × State) :=
  callFirst op addr (occupied s.slots) (s.setPhase .dispatch)

end Sys2Proof.Machine
end

