-- ==== Sys2Proof/Machine/RegisterOps.lean ====
section
/-! DEFINITION. The register operations, the reserved codes and the escape (spec/43_register_operations.md R200 to R210).
Each meaning starts from the payload the decoder hands over (R145, R150 to R153), which it writes to S.PB itself, so that
it is the whole instruction of its row. -/

namespace Sys2Proof.Machine

/-- The read half of Execute (R210), with S.PB cleared to the op's kind on entry (R145). -/
def readOp (op : OpCode) (addr : RegAddr) (s : State) : Host.Outcome State Fault Refusal :=
  match dispatchFirst op addr (s.setPb (cleared (kindOf op))) with
  | some (claimed, s1) => .next (encodeRead claimed s1)
  | none => .fault .handlerNeverReturned

/-- The write half of Execute (R210), with the payload the decoder received (R150 to R153). -/
def writeOp (op : OpCode) (addr : RegAddr) (pl : Payload) (s : State) : Host.Outcome State Fault Refusal :=
  match dispatchAll op addr (s.setPb pl) with
  | some s1 => .next (encodeWrite s1)
  | none => .fault .handlerNeverReturned

/-- The rest of Execute (R210): S.PB is NONE, no handler is called, NAK (R208). -/
def reservedOp (s : State) : State := encodeUnrecognized (s.setPb .none)

/-- RD8 (R200). -/
def execRd8 (addr : RegAddr) (s : State) : Host.Outcome State Fault Refusal := readOp 0 addr s

/-- RD16 (R201). -/
def execRd16 (addr : RegAddr) (s : State) : Host.Outcome State Fault Refusal := readOp 1 addr s

/-- RD32 (R202). -/
def execRd32 (addr : RegAddr) (s : State) : Host.Outcome State Fault Refusal := readOp 2 addr s

/-- RDMB (R203). -/
def execRdmb (addr : RegAddr) (s : State) : Host.Outcome State Fault Refusal := readOp 3 addr s

/-- WR8 (R204). -/
def execWr8 (addr : RegAddr) (v : Byte) (s : State) : Host.Outcome State Fault Refusal := writeOp 4 addr (.u8 v) s

/-- WR16 (R205). -/
def execWr16 (addr : RegAddr) (v : Half) (s : State) : Host.Outcome State Fault Refusal := writeOp 5 addr (.u16 v) s

/-- WR32 (R206). -/
def execWr32 (addr : RegAddr) (v : Long) (s : State) : Host.Outcome State Fault Refusal := writeOp 6 addr (.u32 v) s

/-- WRMB (R207). -/
def execWrmb (addr : RegAddr) (data : List Byte) (s : State) : Host.Outcome State Fault Refusal :=
  writeOp 7 addr (mbOfBytes data) s

/-- RSVD, op 8..15 (R208). Both operands are ignored. -/
def execRsvd8to15 (_o : BitVec 3) (_addr : RegAddr) (s : State) : Host.Outcome State Fault Refusal :=
  .next (reservedOp s)

/-- RSVD, op 16..31 (R208). -/
def execRsvd16to31 (_o : BitVec 4) (_addr : RegAddr) (s : State) : Host.Outcome State Fault Refusal :=
  .next (reservedOp s)

/-- RSVD, op 32..63 but the escape (R208). -/
def execRsvd32to63 (_o : BitVec 5) (_addr : RegAddr) (s : State) : Host.Outcome State Fault Refusal :=
  .next (reservedOp s)

/-- RESYNC: `raise Desync(PROTOCOL_VIOLATION)` (R209, R143). -/
def execResync (s : State) : Host.Outcome State Fault Refusal := .next (desync .triggered .protocolViolation s)

end Sys2Proof.Machine
end

