-- ==== Sys2Proof/Machine/Sync.lean ====
section
/-! DEFINITION. The sync-byte instructions (spec/40_sync.md R112 to R114). -/

namespace Sys2Proof.Machine

/-- SYNCREQ (R112). -/
def execSyncreq (s : State) : Host.Outcome State Fault Refusal := .next (handshake .sync s)

/-- SYNCCKREQ (R113). -/
def execSyncckreq (s : State) : Host.Outcome State Fault Refusal := .next (handshake .syncCk s)

/-- DISCARD: nothing (R114). -/
def execDiscard (_b : Byte) (s : State) : Host.Outcome State Fault Refusal := .next s

end Sys2Proof.Machine
end

