-- ==== Sys2Proof/Machine/Dispatch.lean ====
section
/-! DEFINITION. The meaning of each instruction. -/

namespace Sys2Proof.Machine

def exec (i : Instr) (s : State) : Host.Outcome State Fault Refusal :=
  match i with
  | .syncreq => Sys2Proof.Machine.execSyncreq s
  | .syncckreq => Sys2Proof.Machine.execSyncckreq s
  | .discard b => Sys2Proof.Machine.execDiscard b s
  | .rd8 addr => Sys2Proof.Machine.execRd8 addr s
  | .rd16 addr => Sys2Proof.Machine.execRd16 addr s
  | .rd32 addr => Sys2Proof.Machine.execRd32 addr s
  | .rdmb addr => Sys2Proof.Machine.execRdmb addr s
  | .wr8 addr v => Sys2Proof.Machine.execWr8 addr v s
  | .wr16 addr v => Sys2Proof.Machine.execWr16 addr v s
  | .wr32 addr v => Sys2Proof.Machine.execWr32 addr v s
  | .wrmb addr data => Sys2Proof.Machine.execWrmb addr data s
  | .rsvd8to15 o addr => Sys2Proof.Machine.execRsvd8to15 o addr s
  | .rsvd16to31 o addr => Sys2Proof.Machine.execRsvd16to31 o addr s
  | .rsvd32to63 o addr => Sys2Proof.Machine.execRsvd32to63 o addr s
  | .resync => Sys2Proof.Machine.execResync s
  | .reset => Sys2Proof.Machine.execReset s
  | .poll => Sys2Proof.Machine.execPoll s
  | .pending => Sys2Proof.Machine.execPending s
  | .register h => Sys2Proof.Machine.execRegister h s
  | .unregister h => Sys2Proof.Machine.execUnregister h s
  | .hostIllegal5 => Sys2Proof.Machine.execHostIllegal5 s
  | .hostIllegal6to7 c => Sys2Proof.Machine.execHostIllegal6to7 c s

end Sys2Proof.Machine
end

