-- ==== Sys2Proof/Machine/Fetch.lean ====
section
/-! DEFINITION. Fetching: how the engine reads its next instruction, a sync byte (spec/40_sync.md R111), a frame
(spec/41_frame_decoder.md R140 to R154) or a host command (spec/30_encoding.md R95), and how a table word is placed where
the next step reads. -/

namespace Sys2Proof.Machine

/-- What a fetch ends in: an instruction, or a cause for desync recovery. -/
inductive Fetched where
  | instr (i : Instr) (s : State)
  | trap (cause : Cause) (s : State)
deriving DecidableEq, Repr

/-- The byte read of SyncByte() (R111, R115). -/
def fetchSyncByte (s : State) : Fetched :=
  match rxRead s with
  | (.byte b, s1) => .instr (decodeSyncByte b) s1
  | (.timeout, s1) => .trap .timeout s1

/-- `F.RAW[F.CNT] <- RxByte()`, F.CNT one more, n times; the state at a TIMEOUT is the error (R154). -/
def readPayload : Nat → State → Except State State
  | 0, s => .ok s
  | n + 1, s =>
    match rxRead s with
    | (.byte b, s1) =>
      readPayload n (s1.setFrame { s1.frame with
        raw := s1.frame.raw.setIfInBounds s1.frame.cnt b, cnt := s1.frame.cnt + 1 })
    | (.timeout, s1) => .error s1

/-- P_DATA: the payload bytes still missing, then the instruction (R150 to R155). -/
def fetchData (s : State) : Fetched :=
  match readPayload (payloadNeed s.frame - s.frame.cnt) s with
  | .ok s1 =>
    .instr (frameInstr s1.frame.op s1.frame.addr (s1.frame.raw.toList.take (payloadNeed s1.frame))) s1
  | .error s1 => .trap .timeout s1

/-- `ReadPayload(n)` from its start (R140). -/
def startPayload (s : State) : Fetched :=
  fetchData ((s.setPhase .data).setFrame { s.frame with cnt := 0 })

/-- P_LEN: the length byte and its check (R148, R149). -/
def fetchLen (s : State) : Fetched :=
  match rxRead s with
  | (.byte n, s1) =>
    let s2 := s1.setFrame { s1.frame with len := n }
    if n.toNat > Config.maxMb then .trap .oversizeLength s2 else startPayload s2
  | (.timeout, s1) => .trap .timeout s1

/-- After an accepted header: the decode, the payload clear, and what the op reads next (R144 to R147). -/
def acceptHeader (s : State) : Fetched :=
  let op := headerOp s.frame.b1
  let addr := headerAddr s.frame.b1 s.frame.b2
  let s1 := (s.setFrame { s.frame with op := op, addr := addr }).setPb (cleared (kindOf op))
  if op = 7 then fetchLen (s1.setPhase .len)
  else if fixedPayload op = 0 then .instr (frameInstr op addr []) s1
  else startPayload s1

/-- P_HDR2: the second header byte, and the escape (R142, R143). The escape is the instruction RESYNC (R209). -/
def fetchHdr2 (s : State) : Fetched :=
  match rxRead s with
  | (.byte b2, s1) =>
    let s2 := s1.setFrame { s1.frame with b2 := b2 }
    if isEscape s2.frame.b1 b2 then .instr .resync s2 else acceptHeader s2
  | (.timeout, s1) => .trap .timeout s1

/-- P_HDR1: the first header byte (R141). -/
def fetchHdr1 (s : State) : Fetched :=
  match rxRead s with
  | (.byte b1, s1) => fetchHdr2 ((s1.setFrame { s1.frame with b1 := b1 }).setPhase .hdr2)
  | (.timeout, s1) => .trap .timeout s1

/-- The command that HOST issues at the n-th free draw: any word (R5, R330; log 2). -/
def freeCommand (n : Nat) : HostWord := ⟨Config.freeCmd n, Config.identityNamed (Config.freeCmdName n)⟩

/-- HOST's choice of its next command (R5): the queue's first word; beyond the queue's end a free one if HOST goes on, else
none. -/
def nextCommand (s : State) : Option (HostWord × State) :=
  match s.hostQueue with
  | w :: rest => some (w, { s with hostQueue := rest })
  | [] => if s.hostGoesOn then some (freeCommand s.draws, { s with draws := s.draws + 1 }) else none

/-- The command of a word is issued: it enters the observation (R12, R13). -/
def issueCommand (w : HostWord) (s : State) : State := s.observe [.command (decodeHost w)]

/-- CMD 1, a POLL (R95). -/
def isPoll (w : HostWord) : Bool := w.cmd == 1

/-- An encoded instruction placed where the next step reads: at the front of HOST's queue (a POLL with nothing pending,
so that it is the only instruction of the step), or as TRANSPORT's next bytes with the engine in the phase, and in a sync
state, that reads them (log 13). -/
def place (e : Encoded) (s : State) : State :=
  match e with
  | .host w =>
    { s with
      phase := .idle
      hostQueue := w :: s.hostQueue
      pendScript := if isPoll w then false :: s.pendScript else s.pendScript }
  | .syncByte b => { s with phase := .syncByte, sync := .unsync, rxScript := .byte b :: s.rxScript }
  | .frame bytes =>
    { s with
      phase := .hdr1
      sync := if s.sync = .unsync then .sync else s.sync
      rxScript := bytes.map .byte ++ s.rxScript }

end Sys2Proof.Machine
end

