-- ==== Sys2Proof/Machine/Poll.lean ====
section
/-! DEFINITION. How a host command runs to its end (spec/00_scope.md R13, spec/40_sync.md R110): the command itself and,
for a POLL with a byte pending, the fetch of a wire instruction, that instruction or desync recovery, and the end of the
poll. -/

namespace Sys2Proof.Machine

/-- What follows a next state; a fault or a refusal stays. -/
def andThen (o : Host.Outcome State Fault Refusal) (f : State → Host.Outcome State Fault Refusal) :
    Host.Outcome State Fault Refusal :=
  match o with
  | .next t => f t
  | .fault r => .fault r
  | .refused r => .refused r

/-- The fetched instruction is run and the poll ends; or recovery is raised, which ends the poll at once (R140, R263). -/
def completePoll : Fetched → Host.Outcome State Fault Refusal
  | .instr i s => andThen (exec i s) fun t => .next (endPoll t)
  | .trap cause s => .next (endPoll (desync .triggered cause s))

/-- The rest of the command in progress, from where S.PHASE says it is (R30). In P_IDLE there is none. -/
def continuePoll (s : State) : Host.Outcome State Fault Refusal :=
  match s.phase with
  | .idle => .next s
  | .syncByte => completePoll (fetchSyncByte s)
  | .hdr1 => completePoll (fetchHdr1 s)
  | .hdr2 => completePoll (fetchHdr2 s)
  | .len => completePoll (fetchLen s)
  | .data => completePoll (fetchData s)
  | .dispatch => .fault .noResumePoint
  | .respond => .fault .noResumePoint
  | .flush => .fault .noResumePoint

/-- HOST's next command, to its end. With no command to run the engine does nothing (R291; log 2). -/
def runCommand (s : State) : Host.Outcome State Fault Refusal :=
  match nextCommand s with
  | some (w, s1) => andThen (exec (decodeHost w) (issueCommand w s1)) continuePoll
  | none => .next s

end Sys2Proof.Machine
end

