-- ==== Sys2Proof/Machine/Step.lean ====
section
/-! DEFINITION. One step: one host command, run to completion (spec/00_scope.md R5, R13). -/

namespace Sys2Proof.Machine

/-- In P_IDLE the next command of HOST; in any other phase the rest of the command in progress, which no step leaves
behind (R30). -/
def step (s : State) : Host.Outcome State Fault Refusal :=
  if s.phase = .idle then runCommand s else continuePoll s

/-- The word of an opcode-table row placed where the next step reads its instruction (log 13). -/
def State.withFetchWord (s : State) (nbits w : Nat) : State := place (encodedOfTableWord nbits w) s

end Sys2Proof.Machine
end

