-- ==== Sys2Proof/Safety.lean ====
section
/-! DEFINITION. The terms in which claims about the engine are stated: what a run has sent and done, which answers a
dispatch draws, the duty of the handlers, the invariant between commands, and the relations of two states that a master
cannot tell apart. -/

namespace Sys2Proof.Machine

/-! ### Reading the observation -/

/-- The byte an item of the observation sends, if it is a Tx. -/
def TraceItem.sent : TraceItem → Option Byte
  | .tx b => some b
  | _ => none

/-- The item is an RxRead, with a byte or a TIMEOUT. -/
def TraceItem.isRead : TraceItem → Bool
  | .rx _ => true
  | .rxTimeout => true
  | _ => false

/-- The item is a handler call. -/
def TraceItem.isCall : TraceItem → Bool
  | .call _ _ _ _ _ _ _ => true
  | _ => false

/-- The bytes sent, in order. -/
def sentBytes (items : List TraceItem) : List Byte := items.filterMap TraceItem.sent

/-- The command an item of the observation issues, if it does. -/
def TraceItem.issued : TraceItem → Option Instr
  | .command i => some i
  | _ => none

/-- The commands issued, in order. -/
def issuedCommands (items : List TraceItem) : List Instr := items.filterMap TraceItem.issued

/-- The handlers a REGISTER has named since the last RESET (R34). -/
def registeredAfter (acc : List HandlerId) : List TraceItem → List HandlerId
  | [] => acc
  | .command .reset :: items => registeredAfter [] items
  | .command (.register h) :: items => registeredAfter (h :: acc) items
  | _ :: items => registeredAfter acc items

/-- The handlers registered since the last RESET of an observation. -/
def registeredSinceReset (items : List TraceItem) : List HandlerId := registeredAfter [] items

/-! ### Dispatch in the spec's terms -/

/-- The Call events of slots called in order with the given answers, the payload threaded through them (R183). -/
def callEvents (op : OpCode) (addr : RegAddr) :
    Payload → List (Fin 16 × HandlerId) → List HandlerAnswer → List TraceItem
  | pl, (i, h) :: slots, a :: answers =>
    .call i h op addr pl a.claimed (answerPayload a pl.kind)
      :: callEvents op addr (answerPayload a pl.kind) slots answers
  | _, _, _ => []

/-- S.PB after handlers have given these answers, one after the other (R183). -/
def threaded : Payload → List HandlerAnswer → Payload
  | pl, [] => pl
  | pl, a :: answers => threaded (answerPayload a pl.kind) answers

/-- Some handler claimed. -/
def claimedBy (answers : List HandlerAnswer) : Bool := answers.any (·.claimed)

/-- The answers are those of a dispatch_first over n slots: no answer before the last claims, and the last claims unless
every slot was called (R185). -/
def StopsAtClaim (n : Nat) (answers : List HandlerAnswer) : Prop :=
  answers.length ≤ n ∧ (∀ a ∈ answers.dropLast, a.claimed = false) ∧
    (answers.length = n ∨ claimedBy answers = true)

/-- The answers are those HANDLER's script gives, in order; beyond the script's end any answer (R181). -/
def AnswersOf (script : List HandlerReply) (answers : List HandlerAnswer) : Prop :=
  ∀ (k : Nat) (a : HandlerAnswer) (r : HandlerReply), answers[k]? = some a → script[k]? = some r → r = .returns a

/-- HANDLER keeps its duty (R327): no scripted call is one that never returns. Free answers always return. -/
def HandlersReturn (s : State) : Prop := HandlerReply.neverReturns ∉ s.replyScript

/-! ### Responses -/

/-- The byte sequences the engine sends (R94), and the empty one. -/
def IsResponse (bytes : List Byte) : Prop :=
  bytes = [] ∨ bytes = [0x55] ∨ bytes = [0x06] ∨ (∃ v : Byte, bytes = [0x06, v])
  ∨ (∃ v : Half, bytes = [0x06, v.extractLsb' 8 8, v.extractLsb' 0 8])
  ∨ (∃ v : Long, bytes = [0x06, v.extractLsb' 24 8, v.extractLsb' 16 8, v.extractLsb' 8 8, v.extractLsb' 0 8])
  ∨ (∃ (n : Byte) (data : List Byte), n.toNat = data.length ∧ data.length ≤ 29 ∧ bytes = 0x06 :: n :: data)
  ∨ bytes = [0x0F] ∨ bytes = List.replicate 34 0xFF

/-! ### A POLL with a byte pending -/

/-- HOST's next command is the POLL w, q after it; TRANSPORT answers that a byte is pending, p after it, and answers
RxRead with r. -/
structure Polls (s : State) (w : HostWord) (q : List HostWord) (p : List Bool) (r : List RxAnswer) : Prop where
  idle    : s.phase = .idle
  queue   : s.hostQueue = w :: q
  isPoll  : w.cmd = 1
  pending : s.pendScript = true :: p
  rx      : s.rxScript = r

/-- The state once that POLL has been issued, TRANSPORT holds r, and the items have followed the Pend event. -/
def polled (s : State) (q : List HostWord) (p : List Bool) (r : List RxAnswer)
    (items : List TraceItem) : State :=
  { s with hostQueue := q, pendScript := p, rxScript := r,
           trace := s.trace ++ (.command .poll :: .pend true :: items) }

/-- 34 × Tx(0xFF) (R263). -/
def floodEvents : List TraceItem := List.replicate 34 (.tx 0xFF)

/-! ### The invariant between commands -/

/-- What holds between commands (R34): no command is in progress; the payload count is at most 29 (R29); every handler in
the table was registered since the last RESET; and a synchronized engine's last read returned a byte (a timeout always
leaves it UNSYNC, R261). -/
structure Inv (s : State) : Prop where
  idle       : s.phase = .idle
  count      : s.frame.cnt ≤ 29
  registered : ∀ (i : Fin 16) (h : HandlerId), s.slots[i] = some h → h ∈ registeredSinceReset s.trace
  quiet      : s.sync ≠ .unsync → s.tmo = false

/-! ### Two states that cannot be told apart -/

/-- SYNC and SYNC_CK exchanged (R23). -/
def SyncState.swap : SyncState → SyncState
  | .unsync => .unsync
  | .sync => .syncCk
  | .syncCk => .sync

/-- The state with SYNC and SYNC_CK exchanged. -/
def swapSync (s : State) : State := { s with sync := s.sync.swap }

/-- A function on states carried to outcomes. -/
def mapNext (f : State → State) : Host.Outcome State Fault Refusal → Host.Outcome State Fault Refusal
  | .next t => .next (f t)
  | .fault r => .fault r
  | .refused r => .refused r

/-- The state with the leftovers of earlier frames set to the given values: S.PB, S.TMO and F.* (U10, U11). -/
def withLeftovers (pb : Payload) (tmo : Bool) (frame : FrameRegs) (s : State) : State :=
  { s with pb := pb, tmo := tmo, frame := frame }

/-- The outcome without the leftovers: each next state has them set to one fixed value. -/
def forgetLeftovers (o : Host.Outcome State Fault Refusal) : Host.Outcome State Fault Refusal :=
  mapNext (withLeftovers .none false FrameRegs.reset) o

end Sys2Proof.Machine
end

