-- ==== Sys2Proof/Certificates/Slice0/Obligations.lean ====
section
/-! DEFINITION. The statements for the provers. Each says which rule or section of spec/ it formalises. -/

open Sys2Proof Sys2Proof.Machine

/-! ### Encoding -/

/-- Words written out from the encodings of spec/30_encoding.md R81, R82, R84 and R95 decode to the instruction they stand
for, one or more for each format (95_test_vectors.md L2.1). -/
def Obligations.WrittenOutWordsDecode : Prop :=
  decodeSyncByte 0b10101010 = .syncreq ∧ decodeSyncByte 0b10100101 = .syncckreq ∧
  decodeSyncByte 0b01010101 = .discard 0x55 ∧
  decodeFrame [0b00001011, 0b11111111] = .ok (.rd32 0x3FF, []) ∧
  decodeFrame [0b00010111, 0b11111110, 0b00010010, 0b00110100] = .ok (.wr16 0x3FE 0x1234, []) ∧
  decodeFrame [0b00011110, 0b10101011, 3, 1, 2, 3] = .ok (.wrmb 0x2AB [1, 2, 3], []) ∧
  decodeFrame [0b11111100, 0b11111111] = .ok (.rsvd32to63 0b11111 0x0FF, []) ∧
  decodeFrame [0b11111111, 0b11111111] = .ok (.resync, []) ∧
  ∀ h : HandlerId, decodeHost ⟨0b011, h⟩ = .register h ∧ decodeHost ⟨0b111, h⟩ = .hostIllegal6to7 1

/-- R82: op is H[15:10] = B1[7:2] = B1 >> 2, addr is H[9:0] = ((B1 & 0x03) << 8) | B2, for every header. -/
def Obligations.HeaderFieldsAreShiftAndMask : Prop :=
  ∀ b1 b2 : Byte,
    headerOp b1 = (b1 >>> 2).setWidth 6 ∧
    headerOp b1 = b1.extractLsb' 2 6 ∧
    headerOp b1 = (b1 ++ b2).extractLsb' 10 6 ∧
    headerAddr b1 b2 = ((b1 &&& 0x03).setWidth 10 <<< 8) ||| b2.setWidth 10 ∧
    (headerAddr b1 b2).extractLsb' 8 2 = b1.extractLsb' 0 2 ∧
    (headerAddr b1 b2).extractLsb' 0 8 = b2 ∧
    headerAddr b1 b2 = (b1 ++ b2).extractLsb' 0 10

/-- 30_encoding.md R83 (the spec marks it derived): every pair (op, addr) has exactly one header, every header decodes to
exactly one pair. -/
def Obligations.HeadersAndOpAddrPairsCorrespond : Prop :=
  ∀ (op : OpCode) (addr : RegAddr) (b1 b2 : Byte),
    headerBytes op addr = [b1, b2] ↔ headerOp b1 = op ∧ headerAddr b1 b2 = addr

/-- Every well-formed instruction, encoded and with any bytes after it on the wire, decodes to itself and leaves those
bytes (30_encoding.md, all formats). -/
def Obligations.EncodedInstructionDecodesToItself : Prop :=
  ∀ (i : Instr) (rest : List Byte), i.wellFormed = true →
    decode ((encode i).followedBy rest) =
      .ok (i, match encode i with | .frame _ => rest | _ => [])

/-- What the frame decoder accepts is the encoding of the well-formed instruction it gives, followed by the bytes it
leaves (30_encoding.md, HDR formats). -/
def Obligations.DecodedFrameIsItsEncoding : Prop :=
  ∀ (bytes : List Byte) (i : Instr) (rest : List Byte), decodeFrame bytes = .ok (i, rest) →
    i.wellFormed = true ∧ ∃ word, encode i = .frame word ∧ bytes = word ++ rest

/-- The three decoders give the row that opcode_table.json gives the word, lower priority numbers tried first
(30_encoding.md, Opcode map). -/
def Obligations.DecodersFollowTheOpcodeTable : Prop :=
  (∀ b : Byte, (tableRow .sb b.toNat).map (·.mnemonic) = some (decodeSyncByte b).mnemonic) ∧
  (∀ (b1 b2 : Byte) (tail rest : List Byte) (i : Instr), decodeFrame (b1 :: b2 :: tail) = .ok (i, rest) →
    (tableRow .hdr (b1 ++ b2).toNat).map (·.mnemonic) = some i.mnemonic) ∧
  (∀ w : HostWord, (tableRow .host w.cmd.toNat).map (·.mnemonic) = some (decodeHost w).mnemonic)

/-- 30_encoding.md R86 and 41_frame_decoder.md R157 (derived there): the bytes a frame takes, by its op; 3 + n for op 7. -/
def Obligations.FrameLengthFollowsFromOp : Prop :=
  ∀ (b1 b2 : Byte) (tail rest : List Byte) (i : Instr), decodeFrame (b1 :: b2 :: tail) = .ok (i, rest) →
    ((headerOp b1).toNat ≤ 3 ∨ 8 ≤ (headerOp b1).toNat → (b1 :: b2 :: tail).length = 2 + rest.length) ∧
    (headerOp b1 = 4 → (b1 :: b2 :: tail).length = 3 + rest.length) ∧
    (headerOp b1 = 5 → (b1 :: b2 :: tail).length = 4 + rest.length) ∧
    (headerOp b1 = 6 → (b1 :: b2 :: tail).length = 6 + rest.length) ∧
    (headerOp b1 = 7 → ∃ n more, tail = n :: more ∧ n.toNat ≤ 29 ∧
      (b1 :: b2 :: tail).length = 3 + n.toNat + rest.length)

/-- The frame decoder rejects a frame for its length byte exactly if op is 7 and the byte is above 29 (30_encoding.md,
Length determination; the rejection is decision D3). -/
def Obligations.OnlyOversizeLengthIsIllegal : Prop :=
  ∀ (bytes : List Byte) (n : Byte), decodeFrame bytes = .error (.oversizeLength n) ↔
    ∃ b1 b2 rest, bytes = b1 :: b2 :: n :: rest ∧ headerOp b1 = 7 ∧ n.toNat > 29

/-- 40_sync.md R118 (derived there): while synchronized, the handshake bytes are header bytes of ops 42, 41 and 21, which
are reserved. -/
def Obligations.HandshakeBytesAreHeadersWhenSynchronized : Prop :=
  ∀ (b2 : Byte) (rest : List Byte),
    (headerOp 0xAA = 42 ∧ headerAddr 0xAA b2 = 0x200 ||| b2.setWidth 10 ∧
      decodeFrame (0xAA :: b2 :: rest) = .ok (.rsvd32to63 10 (0x200 ||| b2.setWidth 10), rest)) ∧
    (headerOp 0xA5 = 41 ∧ headerAddr 0xA5 b2 = 0x100 ||| b2.setWidth 10 ∧
      decodeFrame (0xA5 :: b2 :: rest) = .ok (.rsvd32to63 9 (0x100 ||| b2.setWidth 10), rest)) ∧
    (headerOp 0x55 = 21 ∧ headerAddr 0x55 b2 = 0x100 ||| b2.setWidth 10 ∧
      decodeFrame (0x55 :: b2 :: rest) = .ok (.rsvd16to31 5 (0x100 ||| b2.setWidth 10), rest))

/-- 41_frame_decoder.md, Payload bytes (R150, R151, R152): one, two or four payload bytes are the operand, the first byte
the most significant. -/
def Obligations.FixedWritePayloadIsBigEndian : Prop :=
  ∀ (b1 b2 p0 p1 p2 p3 : Byte) (rest : List Byte),
    (headerOp b1 = 4 → decodeFrame (b1 :: b2 :: p0 :: rest) = .ok (.wr8 (headerAddr b1 b2) p0, rest)) ∧
    (headerOp b1 = 5 → decodeFrame (b1 :: b2 :: p0 :: p1 :: rest) =
      .ok (.wr16 (headerAddr b1 b2) ((p0.setWidth 16 <<< 8) ||| p1.setWidth 16), rest)) ∧
    (headerOp b1 = 6 → decodeFrame (b1 :: b2 :: p0 :: p1 :: p2 :: p3 :: rest) =
      .ok (.wr32 (headerAddr b1 b2)
        ((p0.setWidth 32 <<< 24) ||| (p1.setWidth 32 <<< 16) ||| (p2.setWidth 32 <<< 8) ||| p3.setWidth 32), rest))

/-- 41_frame_decoder.md, Payload bytes (R153, with decision D11 for the order): the MB payload of n received bytes has size
n, those bytes in arrival order, and zero from index n on. -/
def Obligations.MultibytePayloadIsZeroPadded : Prop :=
  ∀ data : List Byte, data.length ≤ 29 →
    ∃ (n : Byte) (d : Vector Byte 29), mbOfBytes data = .mb n d ∧ n.toNat = data.length ∧
      ∀ k : Fin 29, d[k] = data.getD k.val 0

/-! ### Sync -/

/-- The step runs the decoded sync byte: a POLL in UNSYNC that reads the byte b runs exec of what b decodes to, with S.TMO
0, and ends the poll (40_sync.md R111). -/
def Obligations.StepRunsTheDecodedSyncByte : Prop :=
  ∀ s w q p b r, Polls s w q p (.byte b :: r) → s.sync = .unsync →
    step s = andThen
      (exec (decodeSyncByte b) { polled s q p r [.rx b] with tmo := false, phase := .syncByte })
      (fun t => .next { t with phase := .idle, trace := t.trace ++ [.result .none] })

/-- R112: SYNCREQ sends exactly one 0x55 and enters SYNC; a POLL that reads 0xAA while UNSYNC does just that, with S.TMO 0,
and leaves everything else alone; while synchronized 0xAA is a header byte. -/
def Obligations.SyncReqEntersSync : Prop :=
  (∀ s : State, exec .syncreq s = .next { s with sync := .sync, trace := s.trace ++ [.tx 0x55] }) ∧
  (∀ s w q p r, Polls s w q p (.byte 0xAA :: r) → s.sync = .unsync →
    step s = .next { polled s q p r [.rx 0xAA, .tx 0x55, .result .none] with sync := .sync, tmo := false }) ∧
  (∀ b2 rest, decodeFrame (0xAA :: b2 :: rest) = .ok (.rsvd32to63 10 (0x200 ||| b2.setWidth 10), rest))

/-- 40_sync.md, SYNCCKREQ (R113): the same with 0xA5 and SYNC_CK. -/
def Obligations.SyncCkReqEntersSyncCk : Prop :=
  (∀ s : State, exec .syncckreq s = .next { s with sync := .syncCk, trace := s.trace ++ [.tx 0x55] }) ∧
  (∀ s w q p r, Polls s w q p (.byte 0xA5 :: r) → s.sync = .unsync →
    step s = .next { polled s q p r [.rx 0xA5, .tx 0x55, .result .none] with sync := .syncCk, tmo := false })

/-- R114: any other byte while UNSYNC changes nothing and sends nothing; the read leaves S.TMO 0. -/
def Obligations.OtherBytesAreDiscardedWhenUnsync : Prop :=
  (∀ b s, exec (.discard b) s = .next s) ∧
  (∀ s w q p b r, Polls s w q p (.byte b :: r) → s.sync = .unsync → b ≠ 0xAA → b ≠ 0xA5 →
    step s = .next { polled s q p r [.rx b, .result .none] with tmo := false })

/-- 40_sync.md R115, with decisions D8 and D24: a timeout while UNSYNC sets S.TMO and sends nothing. -/
def Obligations.TimeoutWhenUnsyncSendsNothing : Prop :=
  ∀ s w q p r, Polls s w q p (.timeout :: r) → s.sync = .unsync →
    step s = .next { polled s q p r [.rxTimeout, .result .none] with tmo := true }

/-- 40_sync.md R119 (derived there), for one command from P_IDLE: S.SYNC changes only by a handshake from UNSYNC, with one
0x55, or to UNSYNC with a flood. -/
def Obligations.SyncChangesOnlyByHandshakeOrFlood : Prop :=
  ∀ s t : State, s.phase = .idle → step s = .next t → t.sync ≠ s.sync →
    ∃ new, t.trace = s.trace ++ new ∧
      ((t.sync = .unsync ∧ sentBytes new = List.replicate 34 0xFF) ∨
       (s.sync = .unsync ∧ t.sync = .sync ∧ .rx 0xAA ∈ new ∧ sentBytes new = [0x55]) ∨
       (s.sync = .unsync ∧ t.sync = .syncCk ∧ .rx 0xA5 ∈ new ∧ sentBytes new = [0x55]))

/-! ### Host commands -/

/-- The step runs the decoded host command: with HOST's word w next, and w no POLL, the step is exec of what w decodes to,
in the state where w has left the queue and entered the trace (30_encoding.md R95; R13). -/
def Obligations.StepRunsTheHostCommand : Prop :=
  ∀ (s : State) (w : HostWord) (q : List HostWord), s.phase = .idle → s.hostQueue = w :: q → w.cmd ≠ 1 →
    step s = exec (decodeHost w) { s with hostQueue := q, trace := s.trace ++ [.command (decodeHost w)] }

/-- With no command to run, a step changes nothing. The model's choice for the end of HOST's commands (log 2), after R291:
nothing wakes the engine. -/
def Obligations.NoCommandNoChange : Prop :=
  ∀ s : State, s.phase = .idle → s.hostQueue = [] → s.hostGoesOn = false → step s = .next s

/-- 00_scope.md, Interface primitives (R11) and 10_state.md, Timeout flag (R24): a read writes S.TMO, 1 on TIMEOUT and 0 on a
byte, and is one event; a write is one event and changes nothing else. A free answer is any answer. -/
def Obligations.ReadWritesTheTimeoutFlag : Prop :=
  (∀ (s : State) b q, s.rxScript = .byte b :: q →
    rxRead s = (.byte b, { s with rxScript := q, tmo := false, trace := s.trace ++ [.rx b] })) ∧
  (∀ (s : State) q, s.rxScript = .timeout :: q →
    rxRead s = (.timeout, { s with rxScript := q, tmo := true, trace := s.trace ++ [.rxTimeout] })) ∧
  (∀ s : State, s.rxScript = [] →
    (∃ b, rxRead s = (.byte b, { s with draws := s.draws + 1, tmo := false, trace := s.trace ++ [.rx b] })) ∨
    rxRead s = (.timeout, { s with draws := s.draws + 1, tmo := true, trace := s.trace ++ [.rxTimeout] })) ∧
  (∀ (b : Byte) (s : State), txWrite [b] s = { s with trace := s.trace ++ [.tx b] })

/-- 40_sync.md, POLL: exec of POLL asks RxPending, and on false it ends there (R110; decision D7 puts that question before
the first read). The clause on true is the model's choice (log 7, DESIGN CHOICE), no rule of the spec: exec stops at its first
read and leaves S.PHASE at P_SYNCBYTE (UNSYNC) or P_HDR1 (synchronized), where R110 runs the poll on to P_IDLE; in the model
the step that ran exec does that. A free answer is any Bool. -/
def Obligations.PollAsksPendingFirst : Prop :=
  (∀ (s : State) p, s.pendScript = false :: p →
    exec .poll s = .next { s with pendScript := p, trace := s.trace ++ [.pend false, .result .none] }) ∧
  (∀ (s : State) p, s.pendScript = true :: p →
    exec .poll s = .next { s with
      pendScript := p, trace := s.trace ++ [.pend true],
      phase := if s.sync = .unsync then .syncByte else .hdr1 }) ∧
  (∀ s : State, s.pendScript = [] → ∃ b,
    exec .poll s = .next { s with
      draws := s.draws + 1, trace := s.trace ++ (.pend b :: if b then [] else [.result .none]),
      phase := if b then (if s.sync = .unsync then .syncByte else .hdr1) else s.phase })

/-- A POLL with nothing pending, as one step: only the queue, the answer and the trace move (40_sync.md, POLL, corner
cases). -/
def Obligations.PollWithNothingPendingDoesNothing : Prop :=
  ∀ (s : State) w q p, s.phase = .idle → s.hostQueue = w :: q → w.cmd = 1 → s.pendScript = false :: p →
    step s = .next { s with
      hostQueue := q, pendScript := p, trace := s.trace ++ [.command .poll, .pend false, .result .none] }

/-- R116: PENDING returns RxPending(), with the event Pend(b); it changes no state and consumes no byte. It is host
CMD 2. -/
def Obligations.PendingReturnsRxPending : Prop :=
  (∀ h, decodeHost ⟨2, h⟩ = .pending) ∧
  (∀ (s : State) b p, s.pendScript = b :: p →
    exec .pending s = .next { s with pendScript := p, trace := s.trace ++ [.pend b, .result (.pending b)] }) ∧
  (∀ s : State, s.pendScript = [] → ∃ b,
    exec .pending s = .next { s with draws := s.draws + 1, trace := s.trace ++ [.pend b, .result (.pending b)] })

/-- 40_sync.md, RESET (R117, with decisions D2 and D22 for S.SLOT, S.PB, S.TMO): from any state RESET floods and leaves the
reset values; it does not touch the frame registers or TRANSPORT. -/
def Obligations.ResetFloodsAndClears : Prop :=
  ∀ s : State, exec .reset s = .next { s with
    sync := .unsync, tmo := false, pb := .none, slots := Vector.replicate 16 none, phase := .idle,
    trace := s.trace ++ (floodEvents ++ [.result .none]) }

/-- The state after reset (10_state.md, Summary; S.TMO, S.PB and S.SLOT by decision D2): its trace is the RESET command's,
and RESET brings every state's architectural elements, but F.*, back to it. -/
def Obligations.ResetStateIsWhatResetLeaves : Prop :=
  State.reset.sync = .unsync ∧ State.reset.tmo = false ∧ State.reset.pb = .none ∧
  (∀ i : Fin 16, State.reset.slots[i] = none) ∧ State.reset.phase = .idle ∧
  sentBytes State.reset.trace = List.replicate 34 0xFF ∧
  ∀ s : State, ∃ t, exec .reset s = .next t ∧ t.sync = State.reset.sync ∧ t.tmo = State.reset.tmo ∧
    t.pb = State.reset.pb ∧ t.slots = State.reset.slots ∧ t.phase = State.reset.phase

/-- 30_encoding.md R96, with decision D12: CMD 5, 6 and 7 return ILLEGAL; no event of R11 occurs, no state changes. -/
def Obligations.IllegalCommandsOnlyReturnIllegal : Prop :=
  (∀ s : State, exec .hostIllegal5 s = .next { s with trace := s.trace ++ [.result (.code 0x1F)] }) ∧
  (∀ (c : BitVec 1) (s : State),
    exec (.hostIllegal6to7 c) s = .next { s with trace := s.trace ++ [.result (.code 0x1F)] })

/-! ### The callback table -/

/-- 42_callback_registry.md, REGISTER (R172, with decisions D10 and D12): the lowest empty slot gets h and its index is the
result; a full table stays and the result is 0x10. Nothing else changes. -/
def Obligations.RegisterFillsLowestEmptySlot : Prop :=
  (∀ (s : State) (h : HandlerId) (i : Fin 16), s.slots[i] = none → (∀ j, j < i → s.slots[j] ≠ none) →
    exec (.register h) s = .next { s with
      slots := s.slots.set i (some h), trace := s.trace ++ [.result (.code (BitVec.ofNat 5 i.val))] }) ∧
  (∀ (s : State) (h : HandlerId), (∀ j : Fin 16, s.slots[j] ≠ none) →
    exec (.register h) s = .next { s with trace := s.trace ++ [.result (.code 0x10)] })

/-- 42_callback_registry.md, UNREGISTER (R173, with decision D12): the lowest slot that holds h is emptied and its index is
the result; with none, nothing changes and the result is 0x10. -/
def Obligations.UnregisterEmptiesLowestMatch : Prop :=
  (∀ (s : State) (h : HandlerId) (i : Fin 16), s.slots[i] = some h → (∀ j, j < i → s.slots[j] ≠ some h) →
    exec (.unregister h) s = .next { s with
      slots := s.slots.set i none, trace := s.trace ++ [.result (.code (BitVec.ofNat 5 i.val))] }) ∧
  (∀ (s : State) (h : HandlerId), (∀ j : Fin 16, s.slots[j] ≠ some h) →
    exec (.unregister h) s = .next { s with trace := s.trace ++ [.result (.code 0x10)] })

/-- 42_callback_registry.md R174 (derived there), over every command: a command that is no RESET changes one slot or none;
none unless it is REGISTER or UNREGISTER. -/
def Obligations.AtMostOneSlotChangesPerCommand : Prop :=
  ∀ (s t : State) (w : HostWord) (q : List HostWord), s.phase = .idle → s.hostQueue = w :: q → w.cmd ≠ 0 →
    step s = .next t →
    (∃ i : Fin 16, ∀ j : Fin 16, j ≠ i → t.slots[j] = s.slots[j]) ∧ (w.cmd ≠ 3 → w.cmd ≠ 4 → t.slots = s.slots)

/-- 10_state.md R34 third line and R28: the slot order list is exactly the occupied slots, lowest index first
(42_callback_registry.md R171). -/
def Obligations.SlotOrderIsIncreasingIndex : Prop :=
  ∀ slots : Vector (Option HandlerId) 16,
    ((occupied slots).map Prod.fst).Pairwise (· < ·) ∧
    ∀ (i : Fin 16) (h : HandlerId), (i, h) ∈ occupied slots ↔ slots[i] = some h

/-! ### Dispatch and the register operations -/

/-- R183 with R182: a call receives S.PB, its answer replaces S.PB, and one Call event is recorded; nothing else changes.
The answer is HANDLER's next scripted one, or some free one. -/
def Obligations.HandlerCallThreadsPayload : Prop :=
  (∀ (s : State) (a : HandlerAnswer) q i h op addr, s.replyScript = .returns a :: q →
    hCall i h op addr s = some (a.claimed, { s with
      replyScript := q, pb := answerPayload a s.pb.kind,
      trace := s.trace ++ [.call i h op addr s.pb a.claimed (answerPayload a s.pb.kind)] })) ∧
  (∀ (s : State) i h op addr, s.replyScript = [] → ∃ a, hCall i h op addr s = some (a.claimed, { s with
      draws := s.draws + 1, pb := answerPayload a s.pb.kind,
      trace := s.trace ++ [.call i h op addr s.pb a.claimed (answerPayload a s.pb.kind)] }))

/-- 42_callback_registry.md, The handler port (R181, decision D16): an answer keeps the call's kind, and every payload of
every kind, with either claim bit, is an answer. -/
def Obligations.HandlerAnswersAreAllPayloadsOfTheKind : Prop :=
  (∀ a k, (answerPayload a k).kind = k) ∧
  (∀ (claimed : Bool) (pl : Payload), ∃ a : HandlerAnswer, a.claimed = claimed ∧ answerPayload a pl.kind = pl)

/-- The write i at addr completes: the payload pl goes through every occupied slot, each called exactly once in slot
order, the claim bits do not matter, one ACK follows, and nothing else changes. -/
def WriteCompletes (i : Instr) (op : OpCode) (addr : RegAddr) (pl : Payload) (s : State) : Prop :=
  ∃ (as : List HandlerAnswer) (d : Nat), as.length = (occupied s.slots).length ∧ AnswersOf s.replyScript as ∧
    exec i s = .next { s with
      pb := threaded pl as, phase := .respond, draws := d, replyScript := s.replyScript.drop as.length,
      trace := s.trace ++ callEvents op addr pl (occupied s.slots) as ++ [.tx 0x06] }

/-- R184, R231: a write calls every occupied slot exactly once, in slot order, and is answered by 0x06 and nothing more,
whoever claims and with an empty table too; for all four writes. (WRMB's payload order is decision D11.) -/
def Obligations.WritesCallEverySlotAndAck : Prop :=
  ∀ s : State, HandlersReturn s → ∀ addr : RegAddr,
    (∀ v, WriteCompletes (.wr8 addr v) 4 addr (.u8 v) s) ∧
    (∀ v, WriteCompletes (.wr16 addr v) 5 addr (.u16 v) s) ∧
    (∀ v, WriteCompletes (.wr32 addr v) 6 addr (.u32 v) s) ∧
    (∀ data, WriteCompletes (.wrmb addr data) 7 addr (mbOfBytes data) s)

/-- The read i at addr completes: the payload pl goes through the occupied slots in slot order up to the first that claims,
the response resp of that outcome follows, and nothing else changes. -/
def ReadCompletes (i : Instr) (op : OpCode) (addr : RegAddr) (pl : Payload)
    (resp : Bool → Payload → List Byte → Prop) (s : State) : Prop :=
  ∃ (as : List HandlerAnswer) (d : Nat) (bytes : List Byte),
    StopsAtClaim (occupied s.slots).length as ∧ AnswersOf s.replyScript as ∧
    resp (claimedBy as) (threaded pl as) bytes ∧
    exec i s = .next { s with
      pb := threaded pl as, phase := .respond, draws := d, replyScript := s.replyScript.drop as.length,
      trace := s.trace ++ callEvents op addr pl (occupied s.slots) as ++ bytes.map .tx }

/-- R185, R237: a read calls slots in slot order until one claims, and none after it; unclaimed, or with an empty table, it
sends 0x0F and nothing more; for all four reads. -/
def Obligations.ReadsStopAtTheFirstClaim : Prop :=
  ∀ s : State, HandlersReturn s → ∀ addr : RegAddr,
    let resp := fun (c : Bool) (_ : Payload) (bytes : List Byte) => c = false → bytes = [0x0F]
    ReadCompletes (.rd8 addr) 0 addr (.u8 0) resp s ∧ ReadCompletes (.rd16 addr) 1 addr (.u16 0) resp s ∧
    ReadCompletes (.rd32 addr) 2 addr (.u32 0) resp s ∧
    ReadCompletes (.rdmb addr) 3 addr (.mb 0 (Vector.replicate 29 0)) resp s

/-- R232: RD8, claimed, sends 0x06 and the value; unclaimed, 0x0F alone. -/
def Obligations.ReadByteAnswersFirstClaim : Prop :=
  ∀ s : State, HandlersReturn s → ∀ addr : RegAddr,
    ReadCompletes (.rd8 addr) 0 addr (.u8 0)
      (fun c pl bytes => ∃ v, pl = .u8 v ∧ bytes = if c then [0x06, v] else [0x0F]) s

/-- R233: RD16, claimed, sends 0x06 and the value, most significant byte first; unclaimed, 0x0F alone. -/
def Obligations.ReadHalfAnswersFirstClaim : Prop :=
  ∀ s : State, HandlersReturn s → ∀ addr : RegAddr,
    ReadCompletes (.rd16 addr) 1 addr (.u16 0)
      (fun c pl bytes => ∃ v, pl = .u16 v ∧
        bytes = if c then [0x06, v.extractLsb' 8 8, v.extractLsb' 0 8] else [0x0F]) s

/-- R234: RD32, claimed, sends 0x06 and the value, most significant byte first; unclaimed, 0x0F alone. -/
def Obligations.ReadLongAnswersFirstClaim : Prop :=
  ∀ s : State, HandlersReturn s → ∀ addr : RegAddr,
    ReadCompletes (.rd32 addr) 2 addr (.u32 0)
      (fun c pl bytes => ∃ v, pl = .u32 v ∧
        bytes = if c then [0x06, v.extractLsb' 24 8, v.extractLsb' 16 8, v.extractLsb' 8 8, v.extractLsb' 0 8]
          else [0x0F]) s

/-- 44_response_encoder.md, Claimed reads (R235 with decision D11, R236 with decision D4) and R237: RDMB sends 0x06, the size
and that many data bytes if the size is at most 29; NAK if it is larger, or unclaimed. -/
def Obligations.ReadMultibyteAnswersFirstClaim : Prop :=
  ∀ s : State, HandlersReturn s → ∀ addr : RegAddr,
    ReadCompletes (.rdmb addr) 3 addr (.mb 0 (Vector.replicate 29 0))
      (fun c pl bytes => ∃ n d, pl = .mb n d ∧
        bytes = if c ∧ n.toNat ≤ 29 then 0x06 :: n :: d.toList.take n.toNat else [0x0F]) s

/-- 43_register_operations.md, Reserved codes (R208, R238; no handler call is decision D6): ops 8..63 but the escape are
answered by 0x0F, whatever op and addr; S.PB is NONE; nothing else changes. -/
def Obligations.ReservedOpsAreNaked : Prop :=
  ∀ (s : State) (addr : RegAddr),
    let t := { s with pb := Payload.none, phase := .respond, trace := s.trace ++ [.tx 0x0F] }
    (∀ o, exec (.rsvd8to15 o addr) s = .next t) ∧ (∀ o, exec (.rsvd16to31 o addr) s = .next t) ∧
    (∀ o, exec (.rsvd32to63 o addr) s = .next t)

/-- 93_implementation_defined.md U13: a read or write whose first handler call never returns is stuck. -/
def Obligations.HandlerThatNeverReturnsStopsTheEngine : Prop :=
  ∀ (s : State) q, s.replyScript = .neverReturns :: q → occupied s.slots ≠ [] → ∀ addr : RegAddr,
    exec (.rd8 addr) s = .fault .handlerNeverReturned ∧ exec (.rd16 addr) s = .fault .handlerNeverReturned ∧
    exec (.rd32 addr) s = .fault .handlerNeverReturned ∧ exec (.rdmb addr) s = .fault .handlerNeverReturned ∧
    (∀ v, exec (.wr8 addr v) s = .fault .handlerNeverReturned) ∧
    (∀ v, exec (.wr16 addr v) s = .fault .handlerNeverReturned) ∧
    (∀ v, exec (.wr32 addr v) s = .fault .handlerNeverReturned) ∧
    (∀ data, exec (.wrmb addr data) s = .fault .handlerNeverReturned)

/-! ### Frames as steps, and desync recovery -/

/-- The step runs the decoded frame: a POLL in a synchronized state whose bytes decode to i reads exactly those bytes, runs
exec of i with S.TMO 0, the header and the payload in the frame registers and S.PB cleared to the op's kind (kept, for
the escape), and ends the poll
(41_frame_decoder.md R140 to R156). -/
def Obligations.StepRunsTheDecodedFrame : Prop :=
  ∀ s w q p b1 b2 tail r i,
    Polls s w q p ((b1 :: b2 :: tail).map .byte ++ r) → s.sync ≠ .unsync →
    decodeFrame (b1 :: b2 :: tail) = .ok (i, []) →
    ∃ (ph : Phase) (f : FrameRegs), f.b1 = b1 ∧ f.b2 = b2 ∧
      (i ≠ .resync → f.op = headerOp b1 ∧ f.addr = headerAddr b1 b2) ∧
      (4 ≤ (headerOp b1).toNat ∧ (headerOp b1).toNat ≤ 6 →
        f.cnt = tail.length ∧ f.raw.toList.take f.cnt = tail) ∧
      (headerOp b1 = 7 →
        tail.head? = some f.len ∧ f.cnt = f.len.toNat ∧ f.raw.toList.take f.cnt = tail.tail) ∧
      step s = andThen
        (exec i { polled s q p r ((b1 :: b2 :: tail).map .rx) with
          tmo := false, phase := ph, frame := f,
          pb := if i = .resync then s.pb else cleared (kindOf (headerOp b1)) })
        (fun t => .next { t with phase := .idle, trace := t.trace ++ [.result .none] })

/-- R263: recovery sends 34 × 0xFF if forced or synchronized, then sets UNSYNC; otherwise it sends nothing. Nothing but
S.SYNC, S.PHASE and the trace changes, whatever the cause. -/
def Obligations.DesyncRecoveryFloods : Prop :=
  ∀ (form : DesyncForm) (cause : Cause) (s : State),
    desync form cause s =
      if form = .forced ∨ s.sync ≠ .unsync then
        { s with phase := .flush, sync := .unsync, trace := s.trace ++ floodEvents }
      else { s with sync := .unsync }

/-- 41_frame_decoder.md, Header (R141, R142) and Payload length (R148): a timeout at a header byte or at the length byte, after the bytes read so far, floods, sets UNSYNC and
S.TMO, calls no handler and sends no ACK or NAK. -/
def Obligations.HeaderOrLengthTimeoutFloods : Prop :=
  ∀ s w q p bytes r e,
    Polls s w q p (bytes.map .byte ++ .timeout :: r) → s.sync ≠ .unsync →
    decodeFrame bytes = .error e → (e = .missingHeader ∨ e = .missingLength) →
    ∃ f : FrameRegs, step s = .next { polled s q p r
        (bytes.map .rx ++ .rxTimeout :: (floodEvents ++ [.result .none])) with
      sync := .unsync, tmo := true, frame := f,
      pb := if e = .missingHeader then s.pb else .mb 0 (Vector.replicate 29 0) }

/-- R154: a timeout at a payload byte floods at once; no handler is called; S.PB is still cleared to the op's kind, and
F.RAW holds the payload bytes received so far. -/
def Obligations.PayloadTimeoutFloods : Prop :=
  ∀ s w q p b1 b2 tail r,
    Polls s w q p ((b1 :: b2 :: tail).map .byte ++ .timeout :: r) → s.sync ≠ .unsync →
    decodeFrame (b1 :: b2 :: tail) = .error .missingPayload →
    ∃ f : FrameRegs,
      f.raw.toList.take f.cnt = (if headerOp b1 = 7 then tail.drop 1 else tail) ∧
      f.cnt = (if headerOp b1 = 7 then tail.drop 1 else tail).length ∧
      step s = .next { polled s q p r
          ((b1 :: b2 :: tail).map .rx ++ .rxTimeout :: (floodEvents ++ [.result .none])) with
        sync := .unsync, tmo := true, frame := f, pb := cleared (kindOf (headerOp b1)) }

/-- R143: the header 0xFF 0xFF while synchronized floods and sets UNSYNC, with S.TMO 0; no handler is called, no ACK or
NAK is sent, and S.PB and the table keep their values; 0xFF with any other B2 is the reserved op 63. -/
def Obligations.EscapeFloods : Prop :=
  (∀ s : State, s.sync ≠ .unsync → exec .resync s =
    .next { s with phase := .flush, sync := .unsync, trace := s.trace ++ floodEvents }) ∧
  (∀ s : State, s.sync = .unsync → exec .resync s = .next s) ∧
  (∀ s w q p r, Polls s w q p (.byte 0xFF :: .byte 0xFF :: r) → s.sync ≠ .unsync →
    step s = .next { polled s q p r (.rx 0xFF :: .rx 0xFF :: (floodEvents ++ [.result .none])) with
      sync := .unsync, tmo := false, frame := { s.frame with b1 := 0xFF, b2 := 0xFF } }) ∧
  (∀ b1 b2 rest, decodeFrame (b1 :: b2 :: rest) = .ok (.resync, rest) ↔ b1 = 0xFF ∧ b2 = 0xFF) ∧
  (∀ b2 rest, b2 ≠ 0xFF →
    decodeFrame (0xFF :: b2 :: rest) = .ok (.rsvd32to63 31 (0x300 ||| b2.setWidth 10), rest))

/-- 41_frame_decoder.md R149, with decision D3: a length byte above 29 floods after three reads and sets UNSYNC, with S.TMO
0; no payload byte is read, no handler is called. -/
def Obligations.OversizeLengthFloods : Prop :=
  ∀ s w q p b1 b2 n r,
    Polls s w q p (.byte b1 :: .byte b2 :: .byte n :: r) → s.sync ≠ .unsync → headerOp b1 = 7 → n.toNat > 29 →
    step s = .next { polled s q p r (.rx b1 :: .rx b2 :: .rx n :: (floodEvents ++ [.result .none])) with
      sync := .unsync, tmo := false, pb := .mb 0 (Vector.replicate 29 0),
      frame := { s.frame with b1 := b1, b2 := b2, op := 7, addr := headerAddr b1 b2, len := n } }

/-- A frame aborted by desync reaches no handler and leaves the table alone (20_memory.md R59, derived there): a command
that ends UNSYNC after a synchronized state sends the flood and nothing else, and calls nobody. -/
def Obligations.DesyncedCommandCallsNoHandler : Prop :=
  ∀ s t : State, s.phase = .idle → step s = .next t → s.sync ≠ .unsync → t.sync = .unsync →
    ∃ new, t.trace = s.trace ++ new ∧ sentBytes new = List.replicate 34 0xFF ∧
      (∀ item ∈ new, item.isCall = false)

/-! ### Whole-machine rules -/

/-- The invariant between commands is kept by every command (10_state.md R34, derived there; S.TMO is an inference from R24 and
R261). -/
def Obligations.EveryStepKeepsInv : Prop :=
  ∀ s t : State, Inv s → step s = .next t → Inv t

/-- The invariant holds after reset (its F.CNT part by the reset value of log 9). -/
def Obligations.InvHoldsAtReset : Prop := Inv State.reset

/-- R94: every byte sequence one step sends is one response of the table, or empty. -/
def Obligations.EveryStepSendsOneResponse : Prop :=
  ∀ s t : State, step s = .next t →
    ∃ new, t.trace = s.trace ++ new ∧ IsResponse (sentBytes new)

/-- 70_reset_and_hazards.md R326 (derived there): one command performs at most 32 reads, 34 writes and 16 handler calls. -/
def Obligations.EventsPerCommandAreBounded : Prop :=
  ∀ s t : State, s.phase = .idle → step s = .next t →
    ∃ new, t.trace = s.trace ++ new ∧ (new.filter (·.isRead)).length ≤ 32 ∧
      (sentBytes new).length ≤ 34 ∧ (new.filter (·.isCall)).length ≤ 16

/-- 70_reset_and_hazards.md R326 (derived there): under HANDLER's duty every command ends, and leaves no other breach of it
to come than there was. (TRANSPORT's duty is in its answers' type: a byte or TIMEOUT.) -/
def Obligations.EveryCommandEnds : Prop :=
  ∀ s : State, s.phase = .idle → HandlersReturn s → ∃ t, step s = .next t ∧ t.phase = .idle ∧ HandlersReturn t

/-- The frame of the wire instructions (10_state.md R24, R28, R29): exec of a wire instruction changes neither S.TMO nor the
table nor F.* nor HOST's coming commands nor what TRANSPORT answers. -/
def Obligations.WireInstructionsLeaveTableAndFlag : Prop :=
  ∀ (i : Instr) (s t : State), (∀ w, encode i ≠ .host w) → exec i s = .next t →
    t.tmo = s.tmo ∧ t.slots = s.slots ∧ t.frame = s.frame ∧ t.hostQueue = s.hostQueue ∧
    t.hostGoesOn = s.hostGoesOn ∧ t.pendScript = s.pendScript ∧ t.rxScript = s.rxScript

/-- 10_state.md, Sync state register (R23): SYNC and SYNC_CK behave the same: from a synchronized state, one command does the same to the state with the two
exchanged, for every command and every answer. (The handshake byte that enters them is `SyncReqEntersSync` and
`SyncCkReqEntersSyncCk`.) -/
def Obligations.SyncAndSyncCkBehaveTheSame : Prop :=
  ∀ s : State, s.phase = .idle → s.sync ≠ .unsync → step (swapSync s) = mapNext swapSync (step s)

/-- What earlier frames left in S.PB, S.TMO and F.* is never observed (10_state.md R24, R27, R29; U10, U11): one command from
two states that differ only there has the same outcome but for the leftovers. -/
def Obligations.LeftoversAreNeverObserved : Prop :=
  ∀ (s : State) (pb : Payload) (tmo : Bool) (frame : FrameRegs), s.phase = .idle →
    forgetLeftovers (step (withLeftovers pb tmo frame s)) = forgetLeftovers (step s)

/-- 60_exceptions.md, Error kinds and codes (R286): from every state between commands a further handshake brings the engine to SYNC: from UNSYNC one POLL that reads
0xAA; from a synchronized state, the escape and then that POLL. The table is kept. (A POLL has no operand: h and h'
stand for whatever its words carry beside CMD.) -/
def Obligations.HandshakeAlwaysRecovers : Prop :=
  ∀ (s : State) (h h' : HandlerId), s.phase = .idle →
    (s.sync = .unsync → ∃ t, core.run 1 { s with
        hostQueue := [⟨1, h⟩], pendScript := [true], rxScript := [.byte 0xAA] } = .next t ∧
      t.sync = .sync ∧ t.phase = .idle ∧ t.slots = s.slots) ∧
    (s.sync ≠ .unsync → ∃ t, core.run 2 { s with
        hostQueue := [⟨1, h⟩, ⟨1, h'⟩], pendScript := [true, true],
        rxScript := [.byte 0xFF, .byte 0xFF, .byte 0xAA] } = .next t ∧
      t.sync = .sync ∧ t.phase = .idle ∧ t.slots = s.slots)

/-- The numeric encodings of S.SYNC, S.PHASE and the causes are those of the spec's tables (10_state.md R22 and R30 with
decisions D1 and D26; 60_exceptions.md R280 with D13). -/
def Obligations.CodesAreThoseOfTheTables : Prop :=
  [SyncState.unsync, .sync, .syncCk].map SyncState.code = [0, 1, 2] ∧
  [Phase.idle, .syncByte, .hdr1, .hdr2, .len, .data, .dispatch, .respond, .flush].map Phase.code = List.range 9 ∧
  [Cause.reset, .timeout, .protocolViolation, .unclaimed, .unrecognizedOp, .oversizeLength, .oversizeRead].map
    Cause.code = List.range 7

/-! ### Runs -/

/-- Beyond the queue's end, where HOST goes on, a step runs a free command as it runs a queued one, so that what is stated of
queued commands holds of free ones (the model's choice, log 2, for R5 and 70_reset_and_hazards.md R330: HOST chooses). -/
def Obligations.FreeCommandRunsLikeAQueuedOne : Prop :=
  ∀ s : State, s.phase = .idle → s.hostQueue = [] → s.hostGoesOn = true →
    step s = step { s with hostQueue := [freeCommand s.draws], draws := s.draws + 1 }

/-- 70_reset_and_hazards.md R330, finite runs: under HANDLER's duty every sequence ws of command words runs to its end, each
command in one step and in order, and leaves the engine between commands with the rest of the queue. -/
def Obligations.EveryFiniteRunReachesItsEnd : Prop :=
  ∀ (s : State) (ws q : List HostWord), s.phase = .idle → HandlersReturn s → s.hostQueue = ws ++ q →
    ∃ t, core.run ws.length s = .next t ∧ t.phase = .idle ∧ HandlersReturn t ∧ t.hostQueue = q ∧
      issuedCommands t.trace = issuedCommands s.trace ++ ws.map decodeHost

/-- 70_reset_and_hazards.md R330, infinite runs: where HOST goes on (log 2), under HANDLER's duty, the run has no last step and
takes one command with every step: the k-th state is between commands, k commands further on, the queue's first. -/
def Obligations.InfiniteRunTakesACommandEveryStep : Prop :=
  ∀ (s : State), s.phase = .idle → HandlersReturn s → s.hostGoesOn = true → ∀ k : Nat,
    ∃ (t : State) (is : List Instr), core.run k s = .next t ∧ t.phase = .idle ∧ HandlersReturn t ∧
      t.hostGoesOn = true ∧ t.hostQueue = s.hostQueue.drop k ∧ is.length = k ∧
      issuedCommands t.trace = issuedCommands s.trace ++ is ∧
      is.take s.hostQueue.length = (s.hostQueue.take k).map decodeHost
end

