-- ==== Sys2Proof/Laws/Decode.lean ====
section
/-! SUPPORT. What the decoder and the encoder can do, said once: the two header bytes as fields, the payload bytes as
operands, and the three forms of a frame that decodes. -/

namespace Sys2Proof

/-! ### Header bytes -/

theorem headerOp_eq_field (b1 : Byte) : headerOp b1 = b1.extractLsb' 2 6 := by
  ext i hi; simp [headerOp, show i < 8 by omega]

/-- Each address bit comes from B2 below bit 8, from B1 above. -/
theorem headerAddr_getElem (b1 b2 : Byte) (i : Nat) (hi : i < 10) :
    (headerAddr b1 b2)[i] = if i < 8 then b2.getLsbD i else b1.getLsbD (i - 8) := by
  by_cases h : i < 8
  · simp [headerAddr, h, BitVec.getLsbD_eq_getElem]
  · have : i = 8 ∨ i = 9 := by omega
    rcases this with rfl | rfl <;> simp [headerAddr]

/-- The op of the first header byte that `headerBytes` makes. -/
theorem headerOp_headerBytes (op : OpCode) (addr : RegAddr) :
    headerOp ((op.setWidth 8 <<< 2) ||| (addr >>> 8).setWidth 8) = op := by
  ext i hi
  simp [headerOp, BitVec.getLsbD_eq_getElem hi, show 2 + i < 8 by omega]
  rw [BitVec.getLsbD_of_ge addr _ (by omega)]; simp; omega

/-- The address of the header that `headerBytes` makes. -/
theorem headerAddr_headerBytes (op : OpCode) (addr : RegAddr) :
    headerAddr ((op.setWidth 8 <<< 2) ||| (addr >>> 8).setWidth 8) (addr.setWidth 8) = addr := by
  ext i hi
  rw [headerAddr_getElem]
  by_cases h : i < 8
  · simp [h, BitVec.getLsbD_eq_getElem hi]
  · have : i = 8 ∨ i = 9 := by omega
    rcases this with rfl | rfl <;> simp

theorem headerBytes_of_fields (b1 b2 : Byte) : headerBytes (headerOp b1) (headerAddr b1 b2) = [b1, b2] := by
  simp only [headerBytes, List.cons.injEq, and_true]
  constructor
  · ext i hi
    rw [BitVec.getElem_or]
    simp only [BitVec.getElem_shiftLeft, BitVec.getElem_setWidth, BitVec.getLsbD_ushiftRight, headerOp]
    by_cases h : i < 2
    · rw [BitVec.getLsbD_eq_getElem (x := headerAddr b1 b2) (by omega), headerAddr_getElem]
      simp [h, BitVec.getLsbD_eq_getElem hi]
    · rw [BitVec.getLsbD_of_ge (headerAddr b1 b2) _ (by omega)]
      simp [h, show 2 + (i - 2) = i by omega, hi, show i - 2 < 6 by omega, show i - 2 < 8 by omega]
  · ext i hi
    rw [BitVec.getElem_setWidth, BitVec.getLsbD_eq_getElem (by omega), headerAddr_getElem]
    simp [hi, BitVec.getLsbD_eq_getElem]

theorem isEscape_iff (b1 b2 : Byte) : isEscape b1 b2 = true ↔ b1 = 0xFF ∧ b2 = 0xFF := by simp [isEscape]

theorem not_isEscape_of_op {b1 b2 : Byte} (h : headerOp b1 ≠ 63) : isEscape b1 b2 = false := by
  rw [Bool.eq_false_iff]; intro he
  rw [isEscape_iff] at he; exact h (by rw [he.1]; decide)

/-! ### Payload bytes -/

theorem halfOfBytes_bytesOfHalf (v : Half) (rest : List Byte) : halfOfBytes (bytesOfHalf v ++ rest) = v := by
  ext i hi
  simp only [halfOfBytes, bytesOfHalf, payloadByte, List.cons_append, List.getD_cons_zero, List.getD_cons_succ,
    BitVec.getElem_or, BitVec.getElem_shiftLeft, BitVec.getElem_setWidth, BitVec.getLsbD_extractLsb']
  by_cases h : i < 8
  · simp [h, BitVec.getLsbD_eq_getElem hi]
  · simp [h, show i - 8 < 8 by omega, show 8 + (i - 8) = i by omega, BitVec.getLsbD_eq_getElem hi]

theorem longOfBytes_bytesOfLong (v : Long) (rest : List Byte) : longOfBytes (bytesOfLong v ++ rest) = v := by
  ext i hi
  simp only [longOfBytes, bytesOfLong, payloadByte, List.cons_append, List.getD_cons_zero, List.getD_cons_succ,
    BitVec.getElem_or, BitVec.getElem_shiftLeft, BitVec.getElem_setWidth, BitVec.getLsbD_extractLsb']
  by_cases h : i < 8
  · simp [h, BitVec.getLsbD_eq_getElem hi, show i < 16 by omega, show i < 24 by omega]
  · by_cases h2 : i < 16
    · simp [h, h2, show i - 8 < 8 by omega, show 8 + (i - 8) = i by omega, BitVec.getLsbD_eq_getElem hi,
        show i < 24 by omega]
    · by_cases h3 : i < 24
      · simp [h, h2, h3, show i - 16 < 8 by omega, show ¬ i - 8 < 8 by omega, show 16 + (i - 16) = i by omega,
          BitVec.getLsbD_eq_getElem hi]
      · simp [h, h2, h3, show ¬ i - 16 < 8 by omega, show ¬ i - 8 < 8 by omega, show i - 24 < 8 by omega,
          show 24 + (i - 24) = i by omega, BitVec.getLsbD_eq_getElem hi]

theorem fixedPayload_le (op : OpCode) : fixedPayload op ≤ 4 := by unfold fixedPayload; split <;> omega

theorem fixedPayload_eq_zero {op : OpCode} (h : 8 ≤ op.toNat ∨ op.toNat < 4) : fixedPayload op = 0 := by
  unfold fixedPayload; split <;> omega

/-! ### Frames -/

/-- A header that is not the escape and not op 7 takes its fixed payload. -/
theorem decodeFrame_headerBytes {op : OpCode} {addr : RegAddr} (h : ¬ (op = 63 ∧ addr = 0x3FF)) (h7 : op ≠ 7)
    (tail : List Byte) :
    decodeFrame (headerBytes op addr ++ tail) = takePayload op addr (fixedPayload op) tail := by
  have he : isEscape ((op.setWidth 8 <<< 2) ||| (addr >>> 8).setWidth 8) (addr.setWidth 8) = false := by
    rw [Bool.eq_false_iff]; intro he
    rw [isEscape_iff] at he
    have h1 := headerOp_headerBytes op addr
    have h2 := headerAddr_headerBytes op addr
    rw [he.1] at h1 h2; rw [he.2] at h2
    exact h ⟨by rw [← h1]; decide, by rw [← h2]; decide⟩
  simp only [headerBytes, List.cons_append, List.nil_append, decodeFrame, he, headerOp_headerBytes,
    headerAddr_headerBytes, h7, if_false, Bool.false_eq_true]

/-- Everything a frame that decodes can be: the escape, a frame of fixed length, or a write-multibyte. -/
theorem decodeFrame_cases {bytes : List Byte} {i : Instr} {rest : List Byte} (h : decodeFrame bytes = .ok (i, rest)) :
    (∃ b1 b2, bytes = b1 :: b2 :: rest ∧ b1 = 0xFF ∧ b2 = 0xFF ∧ i = .resync) ∨
    (∃ b1 b2 tail, bytes = b1 :: b2 :: tail ++ rest ∧ isEscape b1 b2 = false ∧ headerOp b1 ≠ 7 ∧
      tail.length = fixedPayload (headerOp b1) ∧ i = frameInstr (headerOp b1) (headerAddr b1 b2) tail) ∨
    (∃ b1 b2 n tail, bytes = b1 :: b2 :: n :: tail ++ rest ∧ headerOp b1 = 7 ∧ n.toNat ≤ 29 ∧
      tail.length = n.toNat ∧ i = .wrmb (headerAddr b1 b2) tail) := by
  match bytes, h with
  | b1 :: b2 :: tl, h =>
    simp only [decodeFrame, takePayload] at h
    split at h
    · rename_i he; cases h
      rw [isEscape_iff] at he
      exact .inl ⟨b1, b2, rfl, he.1, he.2, rfl⟩
    · rename_i he
      simp only [Bool.not_eq_true] at he
      split at h
      · rename_i h7
        split at h
        · cases h
        · rename_i n tl
          split at h
          · cases h
          · rename_i hn
            split at h
            · cases h
            · rename_i hl
              cases h
              refine .inr (.inr ⟨b1, b2, n, tl.take n.toNat, by simp, h7, by simpa [Config.maxMb] using hn, ?_, ?_⟩)
              · simp; omega
              · rw [h7]; rfl
      · rename_i h7
        split at h
        · cases h
        · rename_i hl
          cases h
          exact .inr (.inl ⟨b1, b2, tl.take (fixedPayload (headerOp b1)), by simp, he, h7, by simp; omega, rfl⟩)

/-- The escape is no operation's instruction. -/
theorem frameInstr_ne_resync (op : OpCode) (addr : RegAddr) (p : List Byte) : frameInstr op addr p ≠ .resync := by
  unfold frameInstr; split <;> try (intro h; cases h)
  split; (intro h; cases h); split <;> (intro h; cases h)

end Sys2Proof
end

