-- ==== Sys2Proof/Laws/State.lean ====
section
/-! SUPPORT. One lemma per field per update of State, each true by definition, so that no proof unfolds a record
update. -/

namespace Sys2Proof.Machine

/-! ### observe -/

@[simp] theorem State.observe_sync (items : List TraceItem) (s : State) : (s.observe items).sync = s.sync := rfl
@[simp] theorem State.observe_tmo (items : List TraceItem) (s : State) : (s.observe items).tmo = s.tmo := rfl
@[simp] theorem State.observe_pb (items : List TraceItem) (s : State) : (s.observe items).pb = s.pb := rfl
@[simp] theorem State.observe_slots (items : List TraceItem) (s : State) : (s.observe items).slots = s.slots := rfl
@[simp] theorem State.observe_phase (items : List TraceItem) (s : State) : (s.observe items).phase = s.phase := rfl
@[simp] theorem State.observe_frame (items : List TraceItem) (s : State) : (s.observe items).frame = s.frame := rfl
@[simp] theorem State.observe_trace (items : List TraceItem) (s : State) : (s.observe items).trace = s.trace ++ items := rfl
@[simp] theorem State.observe_hostQueue (items : List TraceItem) (s : State) : (s.observe items).hostQueue = s.hostQueue := rfl
@[simp] theorem State.observe_hostGoesOn (items : List TraceItem) (s : State) : (s.observe items).hostGoesOn = s.hostGoesOn := rfl
@[simp] theorem State.observe_pendScript (items : List TraceItem) (s : State) : (s.observe items).pendScript = s.pendScript := rfl
@[simp] theorem State.observe_rxScript (items : List TraceItem) (s : State) : (s.observe items).rxScript = s.rxScript := rfl
@[simp] theorem State.observe_replyScript (items : List TraceItem) (s : State) : (s.observe items).replyScript = s.replyScript := rfl
@[simp] theorem State.observe_draws (items : List TraceItem) (s : State) : (s.observe items).draws = s.draws := rfl

/-! ### setPhase -/

@[simp] theorem State.setPhase_sync (p : Phase) (s : State) : (s.setPhase p).sync = s.sync := rfl
@[simp] theorem State.setPhase_tmo (p : Phase) (s : State) : (s.setPhase p).tmo = s.tmo := rfl
@[simp] theorem State.setPhase_pb (p : Phase) (s : State) : (s.setPhase p).pb = s.pb := rfl
@[simp] theorem State.setPhase_slots (p : Phase) (s : State) : (s.setPhase p).slots = s.slots := rfl
@[simp] theorem State.setPhase_phase (p : Phase) (s : State) : (s.setPhase p).phase = p := rfl
@[simp] theorem State.setPhase_frame (p : Phase) (s : State) : (s.setPhase p).frame = s.frame := rfl
@[simp] theorem State.setPhase_trace (p : Phase) (s : State) : (s.setPhase p).trace = s.trace := rfl
@[simp] theorem State.setPhase_hostQueue (p : Phase) (s : State) : (s.setPhase p).hostQueue = s.hostQueue := rfl
@[simp] theorem State.setPhase_hostGoesOn (p : Phase) (s : State) : (s.setPhase p).hostGoesOn = s.hostGoesOn := rfl
@[simp] theorem State.setPhase_pendScript (p : Phase) (s : State) : (s.setPhase p).pendScript = s.pendScript := rfl
@[simp] theorem State.setPhase_rxScript (p : Phase) (s : State) : (s.setPhase p).rxScript = s.rxScript := rfl
@[simp] theorem State.setPhase_replyScript (p : Phase) (s : State) : (s.setPhase p).replyScript = s.replyScript := rfl
@[simp] theorem State.setPhase_draws (p : Phase) (s : State) : (s.setPhase p).draws = s.draws := rfl

/-! ### setPb -/

@[simp] theorem State.setPb_sync (p : Payload) (s : State) : (s.setPb p).sync = s.sync := rfl
@[simp] theorem State.setPb_tmo (p : Payload) (s : State) : (s.setPb p).tmo = s.tmo := rfl
@[simp] theorem State.setPb_pb (p : Payload) (s : State) : (s.setPb p).pb = p := rfl
@[simp] theorem State.setPb_slots (p : Payload) (s : State) : (s.setPb p).slots = s.slots := rfl
@[simp] theorem State.setPb_phase (p : Payload) (s : State) : (s.setPb p).phase = s.phase := rfl
@[simp] theorem State.setPb_frame (p : Payload) (s : State) : (s.setPb p).frame = s.frame := rfl
@[simp] theorem State.setPb_trace (p : Payload) (s : State) : (s.setPb p).trace = s.trace := rfl
@[simp] theorem State.setPb_hostQueue (p : Payload) (s : State) : (s.setPb p).hostQueue = s.hostQueue := rfl
@[simp] theorem State.setPb_hostGoesOn (p : Payload) (s : State) : (s.setPb p).hostGoesOn = s.hostGoesOn := rfl
@[simp] theorem State.setPb_pendScript (p : Payload) (s : State) : (s.setPb p).pendScript = s.pendScript := rfl
@[simp] theorem State.setPb_rxScript (p : Payload) (s : State) : (s.setPb p).rxScript = s.rxScript := rfl
@[simp] theorem State.setPb_replyScript (p : Payload) (s : State) : (s.setPb p).replyScript = s.replyScript := rfl
@[simp] theorem State.setPb_draws (p : Payload) (s : State) : (s.setPb p).draws = s.draws := rfl

/-! ### setSync -/

@[simp] theorem State.setSync_sync (v : SyncState) (s : State) : (s.setSync v).sync = v := rfl
@[simp] theorem State.setSync_tmo (v : SyncState) (s : State) : (s.setSync v).tmo = s.tmo := rfl
@[simp] theorem State.setSync_pb (v : SyncState) (s : State) : (s.setSync v).pb = s.pb := rfl
@[simp] theorem State.setSync_slots (v : SyncState) (s : State) : (s.setSync v).slots = s.slots := rfl
@[simp] theorem State.setSync_phase (v : SyncState) (s : State) : (s.setSync v).phase = s.phase := rfl
@[simp] theorem State.setSync_frame (v : SyncState) (s : State) : (s.setSync v).frame = s.frame := rfl
@[simp] theorem State.setSync_trace (v : SyncState) (s : State) : (s.setSync v).trace = s.trace := rfl
@[simp] theorem State.setSync_hostQueue (v : SyncState) (s : State) : (s.setSync v).hostQueue = s.hostQueue := rfl
@[simp] theorem State.setSync_hostGoesOn (v : SyncState) (s : State) : (s.setSync v).hostGoesOn = s.hostGoesOn := rfl
@[simp] theorem State.setSync_pendScript (v : SyncState) (s : State) : (s.setSync v).pendScript = s.pendScript := rfl
@[simp] theorem State.setSync_rxScript (v : SyncState) (s : State) : (s.setSync v).rxScript = s.rxScript := rfl
@[simp] theorem State.setSync_replyScript (v : SyncState) (s : State) : (s.setSync v).replyScript = s.replyScript := rfl
@[simp] theorem State.setSync_draws (v : SyncState) (s : State) : (s.setSync v).draws = s.draws := rfl

/-! ### setFrame -/

@[simp] theorem State.setFrame_sync (f : FrameRegs) (s : State) : (s.setFrame f).sync = s.sync := rfl
@[simp] theorem State.setFrame_tmo (f : FrameRegs) (s : State) : (s.setFrame f).tmo = s.tmo := rfl
@[simp] theorem State.setFrame_pb (f : FrameRegs) (s : State) : (s.setFrame f).pb = s.pb := rfl
@[simp] theorem State.setFrame_slots (f : FrameRegs) (s : State) : (s.setFrame f).slots = s.slots := rfl
@[simp] theorem State.setFrame_phase (f : FrameRegs) (s : State) : (s.setFrame f).phase = s.phase := rfl
@[simp] theorem State.setFrame_frame (f : FrameRegs) (s : State) : (s.setFrame f).frame = f := rfl
@[simp] theorem State.setFrame_trace (f : FrameRegs) (s : State) : (s.setFrame f).trace = s.trace := rfl
@[simp] theorem State.setFrame_hostQueue (f : FrameRegs) (s : State) : (s.setFrame f).hostQueue = s.hostQueue := rfl
@[simp] theorem State.setFrame_hostGoesOn (f : FrameRegs) (s : State) : (s.setFrame f).hostGoesOn = s.hostGoesOn := rfl
@[simp] theorem State.setFrame_pendScript (f : FrameRegs) (s : State) : (s.setFrame f).pendScript = s.pendScript := rfl
@[simp] theorem State.setFrame_rxScript (f : FrameRegs) (s : State) : (s.setFrame f).rxScript = s.rxScript := rfl
@[simp] theorem State.setFrame_replyScript (f : FrameRegs) (s : State) : (s.setFrame f).replyScript = s.replyScript := rfl
@[simp] theorem State.setFrame_draws (f : FrameRegs) (s : State) : (s.setFrame f).draws = s.draws := rfl

end Sys2Proof.Machine
end

