-- ==== Sys2Proof/Laws/Ops.lean ====
section
/-! SUPPORT. What each shared operation can do, said once: the primitives, the handler call, desync recovery and the
dispatch loops. -/

namespace Sys2Proof.Machine

/-! ### Primitives -/

theorem rxPending_scripted {s : State} {b : Bool} {q : List Bool} (h : s.pendScript = b :: q) :
    rxPending s = (b, { s with pendScript := q, trace := s.trace ++ [.pend b] }) := by
  simp [rxPending, h]

/-- Every RxPending: some answer, the script one shorter, one more Pend event, perhaps one free draw. -/
theorem rxPending_cases (s : State) : ∃ b d,
    rxPending s = (b, { s with pendScript := s.pendScript.tail, draws := d, trace := s.trace ++ [.pend b] }) := by
  cases h : s.pendScript with
  | nil => exact ⟨_, s.draws + 1, by simp only [rxPending, h, List.tail]; rw [← h]⟩
  | cons b q => exact ⟨b, s.draws, by simp [rxPending, h]⟩

theorem rxRead_scripted {s : State} {r : RxAnswer} {q : List RxAnswer} (h : s.rxScript = r :: q) :
    rxRead s = (r, { s with rxScript := q, tmo := tmoOf r, trace := s.trace ++ [rxEvent r] }) := by
  simp [rxRead, h]

/-- Every RxRead: some answer, S.TMO written from it, the script one shorter, one more event, perhaps one free draw. -/
theorem rxRead_cases (s : State) : ∃ r d,
    rxRead s = (r, { s with
      rxScript := s.rxScript.tail, draws := d, tmo := tmoOf r, trace := s.trace ++ [rxEvent r] }) := by
  cases h : s.rxScript with
  | nil => exact ⟨_, s.draws + 1, by simp only [rxRead, h, List.tail]; rw [← h]⟩
  | cons r q => exact ⟨r, s.draws, by simp [rxRead, h]⟩

/-- Every handler call: it never returns, or it appends one Call event and writes S.PB with an answer of the same kind. -/
theorem hCall_cases (i : Fin 16) (h : HandlerId) (op : OpCode) (addr : RegAddr) (s : State) :
    (∃ q, s.replyScript = .neverReturns :: q ∧ hCall i h op addr s = none) ∨
    ∃ a d, (∀ r, s.replyScript[0]? = some r → r = .returns a) ∧
      hCall i h op addr s = some (a.claimed, { s with
        replyScript := s.replyScript.tail, draws := d, pb := answerPayload a s.pb.kind,
        trace := s.trace ++ [.call i h op addr s.pb a.claimed (answerPayload a s.pb.kind)] }) := by
  cases hs : s.replyScript with
  | nil =>
    refine .inr ⟨Config.freeAnswer s.draws, s.draws + 1, by simp, ?_⟩
    simp only [hCall, nextReply, hs, State.setPb, State.observe, List.tail]
  | cons r q =>
    cases r with
    | neverReturns => exact .inl ⟨q, rfl, by simp [hCall, nextReply, hs]⟩
    | returns a =>
      refine .inr ⟨a, s.draws, by simp, ?_⟩
      simp [hCall, nextReply, hs, State.setPb, State.observe]

theorem AnswersOf.nil (script : List HandlerReply) : AnswersOf script [] := by intro k a r h; simp at h

theorem AnswersOf.cons {script : List HandlerReply} {a : HandlerAnswer} {as : List HandlerAnswer}
    (h : ∀ r, script[0]? = some r → r = .returns a) (ht : AnswersOf script.tail as) : AnswersOf script (a :: as) := by
  rintro (_ | k) b r hb hr
  · cases hb; exact h r hr
  · exact ht k b r (by simpa using hb) (by simpa using hr)

/-! ### Payload kinds -/

@[simp] theorem kind_answerPayload (a : HandlerAnswer) (k : Kind) : (answerPayload a k).kind = k := by
  cases k <;> rfl

@[simp] theorem kind_cleared (k : Kind) : (cleared k).kind = k := by cases k <;> rfl

@[simp] theorem kind_threaded (answers : List HandlerAnswer) : ∀ pl, (threaded pl answers).kind = pl.kind := by
  induction answers with
  | nil => intro pl; rfl
  | cons a as ih => intro pl; simp [threaded, ih]

/-! ### Desync recovery -/

theorem desync_synced {form : DesyncForm} {cause : Cause} {s : State} (h : form = .forced ∨ s.sync ≠ .unsync) :
    desync form cause s =
      { s with phase := .flush, sync := .unsync, trace := s.trace ++ List.replicate 34 (.tx 0xFF) } := by
  simp only [desync, h, if_true]; rfl

theorem desync_unsynced {cause : Cause} {s : State} (h : s.sync = .unsync) :
    desync .triggered cause s = s := by
  cases s; simp_all [desync, State.setSync]

/-! ### Dispatch -/

/-- What dispatch_all over the listed slots can do: with every answer drawn, one call each, in order. -/
theorem callAll_cases (op : OpCode) (addr : RegAddr) :
    ∀ (sl : List (Fin 16 × HandlerId)) (s t : State), callAll op addr sl s = some t →
      ∃ (as : List HandlerAnswer) (d : Nat), as.length = sl.length ∧ AnswersOf s.replyScript as ∧
        t = { s with
          pb := threaded s.pb as, draws := d, replyScript := s.replyScript.drop sl.length,
          trace := s.trace ++ callEvents op addr s.pb sl as }
  | [], s, t, h => by
    cases h; exact ⟨[], s.draws, rfl, .nil _, by simp [threaded, callEvents]⟩
  | (i, hd) :: sl, s, t, h => by
    obtain ⟨q, -, hc⟩ | ⟨a, d, ha, hc⟩ := hCall_cases i hd op addr s
    · simp [callAll, hc] at h
    · simp only [callAll, hc] at h
      obtain ⟨as, d', hl, hs, rfl⟩ := callAll_cases op addr sl _ t h
      exact ⟨a :: as, d', by simp [hl], .cons ha hs, by simp [threaded, callEvents]⟩

/-- With handlers that return, dispatch_all completes. -/
theorem callAll_completes (op : OpCode) (addr : RegAddr) :
    ∀ (sl : List (Fin 16 × HandlerId)) (s : State), HandlersReturn s → ∃ t, callAll op addr sl s = some t
  | [], s, _ => ⟨s, rfl⟩
  | (i, hd) :: sl, s, hr => by
    obtain ⟨q, hq, hc⟩ | ⟨a, d, -, hc⟩ := hCall_cases i hd op addr s
    · exact absurd (by rw [hq]; simp) hr
    · simp only [callAll, hc]
      exact callAll_completes op addr sl _ fun hm => hr (List.mem_of_mem_tail hm)

/-- What dispatch_first over the listed slots can do: one call each, in order, up to the first claim. -/
theorem callFirst_cases (op : OpCode) (addr : RegAddr) :
    ∀ (sl : List (Fin 16 × HandlerId)) (s t : State) (c : Bool), callFirst op addr sl s = some (c, t) →
      ∃ (as : List HandlerAnswer) (d : Nat), StopsAtClaim sl.length as ∧ AnswersOf s.replyScript as ∧
        claimedBy as = c ∧ t = { s with
          pb := threaded s.pb as, draws := d, replyScript := s.replyScript.drop as.length,
          trace := s.trace ++ callEvents op addr s.pb sl as }
  | [], s, t, c, h => by
    cases h; exact ⟨[], s.draws, by simp [StopsAtClaim], .nil _, rfl, by simp [threaded, callEvents]⟩
  | (i, hd) :: sl, s, t, c, h => by
    obtain ⟨q, -, hc⟩ | ⟨a, d, hr, hc⟩ := hCall_cases i hd op addr s
    · simp [callFirst, hc] at h
    · cases ha : a.claimed with
      | true =>
        simp only [callFirst, hc, ha, Option.some.injEq, Prod.mk.injEq] at h
        obtain ⟨rfl, rfl⟩ := h
        exact ⟨[a], d, by simp [StopsAtClaim, claimedBy, ha], .cons hr (.nil _), by simp [claimedBy, ha],
          by simp [threaded, callEvents, ha]⟩
      | false =>
        simp only [callFirst, hc, ha] at h
        obtain ⟨as, d', ⟨h1, h2, h3⟩, hs, hcl, rfl⟩ := callFirst_cases op addr sl _ t c h
        refine ⟨a :: as, d', ⟨by simp [h1], ?_, ?_⟩, .cons hr hs,
          by simp [claimedBy, ha] at hcl ⊢; exact hcl,
          by simp [threaded, callEvents, ha]⟩
        · cases as with
          | nil => simp
          | cons b bs => simpa [ha] using h2
        · rcases h3 with h3 | h3
          · exact .inl (by simp [h3])
          · exact .inr (by simp [claimedBy, ha] at h3 ⊢; exact h3)

/-- With handlers that return, dispatch_first completes. -/
theorem callFirst_completes (op : OpCode) (addr : RegAddr) :
    ∀ (sl : List (Fin 16 × HandlerId)) (s : State), HandlersReturn s → ∃ c t, callFirst op addr sl s = some (c, t)
  | [], s, _ => ⟨false, s, rfl⟩
  | (i, hd) :: sl, s, hr => by
    obtain ⟨q, hq, hc⟩ | ⟨a, d, -, hc⟩ := hCall_cases i hd op addr s
    · exact absurd (by rw [hq]; simp) hr
    · cases ha : a.claimed with
      | true => exact ⟨true, _, by simp only [callFirst, hc, ha]; rfl⟩
      | false =>
        simp only [callFirst, hc, ha]
        exact callFirst_completes op addr sl _ fun hm => hr (List.mem_of_mem_tail hm)

end Sys2Proof.Machine
end

