-- ==== Sys2Proof/Laws/Exec.lean ====
section
/-! SUPPORT. What a register operation, the encoder and the table commands can do, said once. -/

namespace Sys2Proof.Machine

/-! ### Encoder -/

/-- The response to a claimed or unclaimed read (R232 to R237). -/
def readResponse (claimed : Bool) (pl : Payload) : List Byte :=
  if claimed then
    match readBytes pl with
    | .ok bytes => 0x06 :: bytes
    | .error _ => [0x0F]
  else [0x0F]

/-- encodeRead sets P_RESPOND and sends the response, and nothing else. -/
theorem encodeRead_eq (claimed : Bool) (s : State) :
    encodeRead claimed s =
      { s with phase := .respond, trace := s.trace ++ (readResponse claimed s.pb).map .tx } := by
  unfold encodeRead readResponse encodeNak
  cases claimed with
  | false => rfl
  | true =>
    simp only [if_true]
    cases readBytes s.pb <;> rfl

/-! ### Register operations -/

/-- A read completes or its handlers do not return; if it completes, it made the calls of a dispatch_first and sent one
response. -/
theorem readOp_cases (op : OpCode) (addr : RegAddr) (s : State) :
    readOp op addr s = .fault .handlerNeverReturned ∨
    ∃ as d, StopsAtClaim (occupied s.slots).length as ∧ AnswersOf s.replyScript as ∧
      readOp op addr s = .next { s with
        pb := threaded (cleared (kindOf op)) as
        phase := .respond
        draws := d
        replyScript := s.replyScript.drop as.length
        trace := s.trace ++ callEvents op addr (cleared (kindOf op)) (occupied s.slots) as
          ++ (readResponse (claimedBy as) (threaded (cleared (kindOf op)) as)).map .tx } := by
  unfold readOp dispatchFirst
  split
  · rename_i c t h
    obtain ⟨as, d, hst, hs, rfl, rfl⟩ := callFirst_cases op addr _ _ t c h
    exact .inr ⟨as, d, hst, hs, by rw [encodeRead_eq]; rfl⟩
  · exact .inl rfl

theorem readOp_completes {op : OpCode} {addr : RegAddr} {s : State} (hr : HandlersReturn s) :
    ∃ t, readOp op addr s = .next t := by
  obtain ⟨c, t, h⟩ := callFirst_completes op addr (occupied s.slots)
    ((s.setPb (cleared (kindOf op))).setPhase .dispatch) hr
  refine ⟨encodeRead c t, ?_⟩
  have : dispatchFirst op addr (s.setPb (cleared (kindOf op))) = some (c, t) := h
  simp only [readOp, this]

/-- A write completes or its handlers do not return; if it completes, it called every occupied slot and sent ACK. -/
theorem writeOp_cases (op : OpCode) (addr : RegAddr) (pl : Payload) (s : State) :
    writeOp op addr pl s = .fault .handlerNeverReturned ∨
    ∃ (as : List HandlerAnswer) (d : Nat), as.length = (occupied s.slots).length ∧ AnswersOf s.replyScript as ∧
      writeOp op addr pl s = .next { s with
        pb := threaded pl as
        phase := .respond
        draws := d
        replyScript := s.replyScript.drop as.length
        trace := s.trace ++ callEvents op addr pl (occupied s.slots) as ++ [.tx 0x06] } := by
  unfold writeOp dispatchAll
  split
  · rename_i t h
    obtain ⟨as, d, hl, hs, rfl⟩ := callAll_cases op addr _ _ t h
    exact .inr ⟨as, d, hl, hs, by rw [hl]; rfl⟩
  · exact .inl rfl

theorem writeOp_completes {op : OpCode} {addr : RegAddr} {pl : Payload} {s : State} (hr : HandlersReturn s) :
    ∃ t, writeOp op addr pl s = .next t := by
  obtain ⟨t, h⟩ := callAll_completes op addr (occupied s.slots) ((s.setPb pl).setPhase .dispatch) hr
  refine ⟨encodeWrite t, ?_⟩
  have : dispatchAll op addr (s.setPb pl) = some t := h
  simp only [writeOp, this]

theorem reservedOp_eq (s : State) :
    reservedOp s = { s with pb := .none, phase := .respond, trace := s.trace ++ [.tx 0x0F] } := rfl

/-! ### The table commands -/

theorem firstSlot_some {slots : Vector (Option HandlerId) 16} {v : Option HandlerId} {i : Fin 16}
    (hi : slots[i] = v) (hlt : ∀ j, j < i → slots[j] ≠ v) : firstSlot slots v = some i := by
  unfold firstSlot
  rw [List.find?_eq_some_iff_getElem]
  refine ⟨by simpa using hi, i.val, by simp, by simp, ?_⟩
  intro j hj
  have := hlt ⟨j, by omega⟩ hj
  simpa using this

theorem firstSlot_none {slots : Vector (Option HandlerId) 16} {v : Option HandlerId}
    (h : ∀ j : Fin 16, slots[j] ≠ v) : firstSlot slots v = none := by
  unfold firstSlot
  rw [List.find?_eq_none]
  intro j _
  simpa using h j

/-- replaceFirst changes one slot, or none, and the trace. -/
theorem replaceFirst_cases (old new : Option HandlerId) (s : State) :
    (∃ i : Fin 16, s.slots[i] = old ∧ replaceFirst old new s =
      { s with slots := s.slots.set i new, trace := s.trace ++ [.result (.code (BitVec.ofNat 5 i.val))] }) ∨
    replaceFirst old new s = { s with trace := s.trace ++ [.result (.code 0x10)] } := by
  unfold replaceFirst
  split
  · rename_i i h
    exact .inl ⟨i, by simpa using List.find?_some h, rfl⟩
  · exact .inr rfl

end Sys2Proof.Machine
end

