-- ==== Sys2Proof/Laws/Fetch.lean ====
section
/-! SUPPORT. What fetching a wire instruction can do, said once: with TRANSPORT's answers given, exactly; and for any
answers, that it only reads, how often, and which instructions it gives. -/

namespace Sys2Proof.Machine

/-! ### The payload buffer -/

/-- Each byte after memWrite. -/
theorem memWrite_getElem (p : List Byte) : ∀ (d : Vector Byte 29) (i k : Nat) (hk : k < 29),
    (memWrite d i p)[k] = if i ≤ k then (if k - i < p.length then p.getD (k - i) 0 else d[k]) else d[k] := by
  induction p with
  | nil => intro d i k hk; simp [memWrite]
  | cons b bs ih =>
    intro d i k hk
    rw [memWrite, ih]
    by_cases h1 : i + 1 ≤ k
    · have : k - i = (k - (i + 1)) + 1 := by omega
      rw [this]; simp [h1, show i ≤ k by omega, show i ≠ k by omega]
    · by_cases h2 : i = k
      · subst h2; simp
      · simp [h1, show ¬ i ≤ k by omega, h2]

theorem take_memWrite (raw : Vector Byte 29) (bytes : List Byte) (h : bytes.length ≤ 29) :
    (memWrite raw 0 bytes).toList.take bytes.length = bytes := by
  apply List.ext_getElem
  · simp; omega
  · intro k h1 h2
    simp only [List.getElem_take, Vector.getElem_toList]
    rw [memWrite_getElem]; simp [h2]

/-! ### With the answers given -/

theorem payloadNeed_of_eq {f : FrameRegs} (h : f.op = 7) : payloadNeed f = f.len.toNat := by simp [payloadNeed, h]

theorem payloadNeed_of_ne {f : FrameRegs} (h : f.op ≠ 7) : payloadNeed f = fixedPayload f.op := by
  simp only [payloadNeed, if_neg h]

theorem readPayload_of_bytes : ∀ (bytes : List Byte) (s : State) (r : List RxAnswer),
    s.rxScript = bytes.map .byte ++ r → s.tmo = false →
    readPayload bytes.length s = .ok { s with
      rxScript := r,
      frame := { s.frame with raw := memWrite s.frame.raw s.frame.cnt bytes, cnt := s.frame.cnt + bytes.length },
      trace := s.trace ++ bytes.map .rx }
  | [], s, r, h, _ => by simp [readPayload, memWrite]; simp at h; rw [← h]
  | b :: bs, s, r, h, ht => by
    simp only [List.length_cons, readPayload, rxRead_scripted h]
    rw [readPayload_of_bytes bs _ r rfl (by simp [State.setFrame, tmoOf])]
    simp [State.setFrame, memWrite, tmoOf, rxEvent, ht]; omega

theorem readPayload_of_timeout (bytes : List Byte) : ∀ (n : Nat) (s : State) (r : List RxAnswer),
    s.rxScript = bytes.map .byte ++ .timeout :: r → bytes.length < n →
    readPayload n s = .error { s with
      rxScript := r, tmo := true,
      frame := { s.frame with raw := memWrite s.frame.raw s.frame.cnt bytes, cnt := s.frame.cnt + bytes.length },
      trace := s.trace ++ (bytes.map .rx ++ [.rxTimeout]) } := by
  induction bytes with
  | nil =>
    intro n s r h hn
    obtain ⟨m, rfl⟩ := Nat.exists_eq_succ_of_ne_zero (Nat.ne_of_gt hn)
    simp only [readPayload, rxRead_scripted (r := .timeout) (q := r) h]
    rfl
  | cons b bs ih =>
    intro n s r h hn
    obtain ⟨m, rfl⟩ := Nat.exists_eq_succ_of_ne_zero (Nat.ne_of_gt (Nat.zero_lt_of_lt hn))
    simp only [readPayload, rxRead_scripted (r := .byte b) (q := bs.map .byte ++ .timeout :: r) h]
    rw [ih m _ r rfl (by simpa using hn)]
    simp [State.setFrame, memWrite, tmoOf, rxEvent]; omega

theorem startPayload_of_bytes (s : State) (bytes : List Byte) (r : List RxAnswer)
    (h : s.rxScript = bytes.map .byte ++ r) (ht : s.tmo = false) (hn : payloadNeed s.frame = bytes.length)
    (hl : bytes.length ≤ 29) :
    startPayload s = .instr (frameInstr s.frame.op s.frame.addr bytes) { s with
      phase := .data, rxScript := r,
      frame := { s.frame with raw := memWrite s.frame.raw 0 bytes, cnt := bytes.length },
      trace := s.trace ++ bytes.map .rx } := by
  unfold startPayload fetchData
  have e : payloadNeed ((s.setPhase .data).setFrame { s.frame with cnt := 0 }).frame = bytes.length := hn
  rw [e]
  simp only [State.setFrame_frame, Nat.sub_zero]
  rw [readPayload_of_bytes bytes ((s.setPhase .data).setFrame { s.frame with cnt := 0 }) r h ht]
  simp only [State.setFrame_frame, Nat.zero_add]
  have e2 : payloadNeed { s.frame with raw := memWrite s.frame.raw 0 bytes, cnt := bytes.length } = bytes.length := hn
  rw [e2, take_memWrite _ _ hl]
  rfl

theorem startPayload_of_timeout (s : State) (bytes : List Byte) (r : List RxAnswer)
    (h : s.rxScript = bytes.map .byte ++ .timeout :: r) (hn : bytes.length < payloadNeed s.frame) :
    startPayload s = .trap .timeout { s with
      phase := .data, rxScript := r, tmo := true,
      frame := { s.frame with raw := memWrite s.frame.raw 0 bytes, cnt := bytes.length },
      trace := s.trace ++ (bytes.map .rx ++ [.rxTimeout]) } := by
  unfold startPayload fetchData
  simp only [State.setFrame_frame, Nat.sub_zero]
  have e : payloadNeed { s.frame with cnt := 0 } = payloadNeed s.frame := rfl
  rw [e, readPayload_of_timeout bytes (payloadNeed s.frame) ((s.setPhase .data).setFrame { s.frame with cnt := 0 }) r h hn]
  simp only [State.setFrame_frame, Nat.zero_add]; rfl

/-- The state after both header bytes. -/
def headerRead (s : State) (b1 b2 : Byte) (r : List RxAnswer) : State :=
  { s with rxScript := r, tmo := false, phase := .hdr2, frame := { s.frame with b1 := b1, b2 := b2 },
           trace := s.trace ++ [.rx b1, .rx b2] }

/-- The state after an accepted header. -/
def headerAccepted (s : State) (b1 b2 : Byte) (r : List RxAnswer) : State :=
  { headerRead s b1 b2 r with
    pb := cleared (kindOf (headerOp b1)),
    frame := { s.frame with b1 := b1, b2 := b2, op := headerOp b1, addr := headerAddr b1 b2 } }

theorem fetchHdr1_of_bytes {s : State} {b1 b2 : Byte} {r : List RxAnswer} (h : s.rxScript = .byte b1 :: .byte b2 :: r) :
    fetchHdr1 s = if isEscape b1 b2 then .instr .resync (headerRead s b1 b2 r)
      else acceptHeader (headerRead s b1 b2 r) := by
  simp only [fetchHdr1, rxRead_scripted h, fetchHdr2]
  rw [rxRead_scripted (r := .byte b2) (q := r) rfl]
  simp [State.setFrame, State.setPhase, headerRead, tmoOf, rxEvent]

theorem acceptHeader_headerRead (s : State) (b1 b2 : Byte) (r : List RxAnswer) :
    acceptHeader (headerRead s b1 b2 r) =
      if headerOp b1 = 7 then fetchLen ((headerAccepted s b1 b2 r).setPhase .len)
      else if fixedPayload (headerOp b1) = 0 then
        .instr (frameInstr (headerOp b1) (headerAddr b1 b2) []) (headerAccepted s b1 b2 r)
      else startPayload (headerAccepted s b1 b2 r) := rfl

/-! ### For any answers -/

/-- The state a fetch ends in. -/
def Fetched.state : Fetched → State
  | .instr _ s => s
  | .trap _ s => s

/-- From s to t the engine has read at most n times and done nothing else but write S.TMO, S.PB, S.PHASE and F.*. -/
structure OnlyReads (s t : State) (n : Nat) : Prop where
  sync        : t.sync = s.sync
  slots       : t.slots = s.slots
  hostQueue   : t.hostQueue = s.hostQueue
  hostGoesOn  : t.hostGoesOn = s.hostGoesOn
  pendScript  : t.pendScript = s.pendScript
  replyScript : t.replyScript = s.replyScript
  reads       : ∃ items, t.trace = s.trace ++ items ∧ (∀ x ∈ items, x.isRead = true) ∧ items.length ≤ n

theorem OnlyReads.trans {s t u : State} {n m : Nat} (h : OnlyReads s t n) (k : OnlyReads t u m) :
    OnlyReads s u (n + m) := by
  obtain ⟨a, b, c, g, d, e, i, hi, hr, hl⟩ := h
  obtain ⟨a', b', c', g', d', e', i', hi', hr', hl'⟩ := k
  refine ⟨a'.trans a, b'.trans b, c'.trans c, g'.trans g, d'.trans d, e'.trans e, i ++ i', by rw [hi', hi, List.append_assoc], ?_,
    by simp; omega⟩
  intro x hx; rcases List.mem_append.mp hx with h | h; exact hr x h; exact hr' x h

theorem OnlyReads.mono {s t : State} {n m : Nat} (h : OnlyReads s t n) (hm : n ≤ m) : OnlyReads s t m := by
  obtain ⟨a, b, c, g, d, e, i, hi, hr, hl⟩ := h
  exact ⟨a, b, c, g, d, e, i, hi, hr, by omega⟩

theorem OnlyReads.of_eq {s t : State} (a : t.sync = s.sync) (b : t.slots = s.slots) (c : t.hostQueue = s.hostQueue)
    (g : t.hostGoesOn = s.hostGoesOn) (d : t.pendScript = s.pendScript) (e : t.replyScript = s.replyScript) (f : t.trace = s.trace) : OnlyReads s t 0 :=
  ⟨a, b, c, g, d, e, [], by simp [f], by simp, by simp⟩

theorem OnlyReads.update {s t u : State} {n : Nat} (h : OnlyReads s t n) (a : u.sync = t.sync) (b : u.slots = t.slots)
    (c : u.hostQueue = t.hostQueue) (g : u.hostGoesOn = t.hostGoesOn) (d : u.pendScript = t.pendScript) (e : u.replyScript = t.replyScript)
    (f : u.trace = t.trace) : OnlyReads s u n := by
  simpa using h.trans (.of_eq a b c g d e f)

theorem rxRead_onlyReads (s : State) : OnlyReads s (rxRead s).2 1 ∧ (rxRead s).2.frame = s.frame ∧
    (rxRead s).2.phase = s.phase ∧ (rxRead s).2.tmo = tmoOf (rxRead s).1 := by
  obtain ⟨r, d, h⟩ := rxRead_cases s
  rw [h]
  refine ⟨⟨rfl, rfl, rfl, rfl, rfl, rfl, [rxEvent r], rfl, ?_, by simp⟩, rfl, rfl, rfl⟩
  intro x hx; simp at hx; subst hx; cases r <;> rfl

theorem readPayload_cases : ∀ (n : Nat) (s : State),
    (∀ t, readPayload n s = .ok t → OnlyReads s t n ∧ t.frame.cnt = s.frame.cnt + n ∧ t.frame.len = s.frame.len ∧
      t.frame.op = s.frame.op ∧ (s.tmo = false → t.tmo = false)) ∧
    (∀ t, readPayload n s = .error t → OnlyReads s t n ∧ t.frame.cnt ≤ s.frame.cnt + n)
  | 0, s => ⟨fun t h => by cases h; exact ⟨.of_eq rfl rfl rfl rfl rfl rfl rfl, rfl, rfl, rfl, id⟩, fun t h => by cases h⟩
  | n + 1, s => by
    simp only [readPayload]
    obtain ⟨ho, hf, -, ht⟩ := rxRead_onlyReads s
    generalize rxRead s = x at *
    obtain ⟨r, s1⟩ := x
    simp only at ho hf ht
    cases r with
    | byte b =>
      have hx : OnlyReads s (s1.setFrame { s1.frame with
        raw := s1.frame.raw.setIfInBounds s1.frame.cnt b, cnt := s1.frame.cnt + 1 }) 1 :=
        ho.update rfl rfl rfl rfl rfl rfl rfl
      obtain ⟨h1, h2⟩ := readPayload_cases n (s1.setFrame { s1.frame with
        raw := s1.frame.raw.setIfInBounds s1.frame.cnt b, cnt := s1.frame.cnt + 1 })
      refine ⟨fun t h => ?_, fun t h => ?_⟩
      · obtain ⟨a, b, c, d, e⟩ := h1 t h
        exact ⟨(hx.trans a).mono (by omega), by rw [b]; simp [hf]; omega, by rw [c]; simp [hf], by rw [d]; simp [hf],
          fun _ => e ht⟩
      · obtain ⟨a, b⟩ := h2 t h
        exact ⟨(hx.trans a).mono (by omega), by simp [hf] at b; omega⟩
    | timeout =>
      refine ⟨fun t h => by (simp only at h; cases h), fun t h => ?_⟩
      simp only at h; cases h
      exact ⟨ho.mono (by omega), by rw [hf]; omega⟩

/-- The instructions a frame can give. -/
def IsFrameInstr (i : Instr) : Prop := (∃ op addr p, i = frameInstr op addr p) ∨ i = .resync

/-- What a fetch of at most n reads can do: it only reads; F.CNT stays at most 29; an instruction it gives is a frame's,
and S.TMO is then 0 if it was. -/
structure FetchCases (s : State) (n : Nat) (f : Fetched) : Prop where
  reads : OnlyReads s f.state n
  cnt   : s.frame.cnt ≤ 29 → f.state.frame.cnt ≤ 29
  instr : ∀ i t, f = .instr i t → IsFrameInstr i ∧ (s.tmo = false → t.tmo = false)

theorem FetchCases.after {s t : State} {n m : Nat} {f : Fetched} (h : OnlyReads s t n)
    (hc : s.frame.cnt ≤ 29 → t.frame.cnt ≤ 29) (ht : t.tmo = false ∨ t.tmo = s.tmo) (k : FetchCases t m f) :
    FetchCases s (n + m) f := by
  obtain ⟨a, b, c⟩ := k
  refine ⟨h.trans a, fun x => b (hc x), fun i u hu => ⟨(c i u hu).1, fun x => (c i u hu).2 ?_⟩⟩
  rcases ht with h | h; exact h; rw [h, x]

theorem FetchCases.mono {s : State} {n m : Nat} {f : Fetched} (h : FetchCases s n f) (hm : n ≤ m) : FetchCases s m f :=
  ⟨h.1.mono hm, h.2, h.3⟩

theorem FetchCases.of_trap {s t : State} {c : Cause} {n : Nat} (h : OnlyReads s t n)
    (hc : s.frame.cnt ≤ 29 → t.frame.cnt ≤ 29) : FetchCases s n (.trap c t) :=
  ⟨h, hc, fun i u hu => by cases hu⟩

theorem fetchData_cases (s : State) (hn : payloadNeed s.frame ≤ 29) :
    FetchCases s (payloadNeed s.frame - s.frame.cnt) (fetchData s) := by
  unfold fetchData
  obtain ⟨h1, h2⟩ := readPayload_cases (payloadNeed s.frame - s.frame.cnt) s
  cases h : readPayload (payloadNeed s.frame - s.frame.cnt) s with
  | ok t =>
    obtain ⟨a, b, c, d, e⟩ := h1 t h
    exact ⟨a, fun x => by simp only [Fetched.state]; omega, fun i u hu => by cases hu; exact ⟨.inl ⟨_, _, _, rfl⟩, e⟩⟩
  | error t =>
    obtain ⟨a, b⟩ := h2 t h
    exact .of_trap a (fun x => by omega)

theorem startPayload_cases (s : State) (h : payloadNeed s.frame ≤ 29) :
    FetchCases s (payloadNeed s.frame) (startPayload s) := by
  unfold startPayload
  have hn : payloadNeed ((s.setPhase .data).setFrame { s.frame with cnt := 0 }).frame = payloadNeed s.frame := rfl
  have := FetchCases.after (s := s) (t := (s.setPhase .data).setFrame { s.frame with cnt := 0 })
    (.of_eq rfl rfl rfl rfl rfl rfl rfl) (by simp) (.inr rfl) (fetchData_cases _ (by rw [hn]; exact h))
  rw [hn] at this; simpa using this

/-- From any F.OP: what follows the length byte is at most 29 bytes. -/
theorem fetchLen_cases (s : State) : FetchCases s 30 (fetchLen s) := by
  unfold fetchLen
  obtain ⟨ho, hf, -, ht⟩ := rxRead_onlyReads s
  generalize rxRead s = x at *
  obtain ⟨r, s1⟩ := x
  simp only at ho hf ht ⊢
  cases r with
  | byte b =>
    simp only
    have h2 : OnlyReads s (s1.setFrame { s1.frame with len := b }) 1 := ho.update rfl rfl rfl rfl rfl rfl rfl
    split
    · exact .of_trap (h2.mono (by omega)) (by simp [hf])
    · rename_i hb
      simp only [Config.maxMb] at hb
      have hq : payloadNeed (s1.setFrame { s1.frame with len := b }).frame ≤ 29 := by
        by_cases h7 : (s1.setFrame { s1.frame with len := b }).frame.op = 7
        · rw [payloadNeed_of_eq h7]; simp; omega
        · rw [payloadNeed_of_ne h7]; exact (fixedPayload_le _).trans (by omega)
      exact (FetchCases.after h2 (by simp [hf]) (.inl ht) (startPayload_cases _ hq)).mono (by omega)
  | timeout => exact .of_trap (ho.mono (by omega)) (by simp [hf])

theorem acceptHeader_cases (s : State) : FetchCases s 30 (acceptHeader s) := by
  unfold acceptHeader
  simp only
  have h0 : ∀ p, OnlyReads s (((s.setFrame { s.frame with
      op := headerOp s.frame.b1, addr := headerAddr s.frame.b1 s.frame.b2 }).setPb
        (cleared (kindOf (headerOp s.frame.b1)))).setPhase p) 0 := fun p => .of_eq rfl rfl rfl rfl rfl rfl rfl
  split
  · simpa using FetchCases.after (h0 .len) (by simp) (.inr rfl) (fetchLen_cases _)
  · rename_i h7
    split
    · exact ⟨(h0 s.phase).mono (by omega), id, fun i t h => by cases h; exact ⟨.inl ⟨_, _, _, rfl⟩, id⟩⟩
    · have h4 := fixedPayload_le (headerOp s.frame.b1)
      have hq : payloadNeed ((s.setFrame { s.frame with
          op := headerOp s.frame.b1, addr := headerAddr s.frame.b1 s.frame.b2 }).setPb
            (cleared (kindOf (headerOp s.frame.b1)))).frame = fixedPayload (headerOp s.frame.b1) :=
        payloadNeed_of_ne (by simpa using h7)
      have := FetchCases.after (h0 s.phase) (by simp) (.inr rfl)
        (startPayload_cases _ (by rw [State.setPhase_frame, hq]; omega))
      rw [State.setPhase_frame, hq] at this
      exact this.mono (by omega)

theorem fetchHdr2_cases (s : State) : FetchCases s 31 (fetchHdr2 s) := by
  unfold fetchHdr2
  obtain ⟨ho, hf, -, ht⟩ := rxRead_onlyReads s
  generalize rxRead s = x at *
  obtain ⟨r, s1⟩ := x
  simp only at ho hf ht ⊢
  cases r with
  | byte b =>
    simp only
    have h2 : OnlyReads s (s1.setFrame { s1.frame with b2 := b }) 1 := ho.update rfl rfl rfl rfl rfl rfl rfl
    split
    · exact ⟨h2.mono (by omega), by simp [Fetched.state, hf],
        fun i t h => by cases h; exact ⟨.inr rfl, fun _ => ht⟩⟩
    · simpa using FetchCases.after h2 (by simp [hf]) (.inl ht) (acceptHeader_cases _)
  | timeout => exact .of_trap (ho.mono (by omega)) (by simp [hf])

/-- A whole frame: at most 32 reads, and S.TMO is 0 when it gives an instruction. -/
theorem fetchHdr1_cases (s : State) :
    FetchCases s 32 (fetchHdr1 s) ∧ (∀ i t, fetchHdr1 s = .instr i t → t.tmo = false) := by
  unfold fetchHdr1
  obtain ⟨ho, hf, -, ht⟩ := rxRead_onlyReads s
  generalize rxRead s = x at *
  obtain ⟨r, s1⟩ := x
  simp only at ho hf ht ⊢
  cases r with
  | byte b =>
    simp only
    have h2 : OnlyReads s ((s1.setFrame { s1.frame with b1 := b }).setPhase .hdr2) 1 :=
      ho.update rfl rfl rfl rfl rfl rfl rfl
    have k := fetchHdr2_cases ((s1.setFrame { s1.frame with b1 := b }).setPhase .hdr2)
    exact ⟨by simpa using FetchCases.after h2 (by simp [hf]) (.inl ht) k, fun i t h => (k.3 i t h).2 ht⟩
  | timeout => exact ⟨.of_trap (ho.mono (by omega)) (by simp [hf]), fun i t h => by cases h⟩

/-! ### A frame's instruction -/

/-- exec of a frame's instruction is a read, a write or a reserved operation. -/
theorem exec_frameInstr_cases (op : OpCode) (addr : RegAddr) (p : List Byte) (s : State) :
    (∃ op' addr', exec (frameInstr op addr p) s = readOp op' addr' s) ∨
    (∃ op' addr' pl, exec (frameInstr op addr p) s = writeOp op' addr' pl s) ∨
    exec (frameInstr op addr p) s = .next (reservedOp s) := by
  unfold frameInstr
  split
  · exact .inl ⟨_, _, rfl⟩
  · exact .inl ⟨_, _, rfl⟩
  · exact .inl ⟨_, _, rfl⟩
  · exact .inl ⟨_, _, rfl⟩
  · exact .inr (.inl ⟨_, _, _, rfl⟩)
  · exact .inr (.inl ⟨_, _, _, rfl⟩)
  · exact .inr (.inl ⟨_, _, _, rfl⟩)
  · exact .inr (.inl ⟨_, _, _, rfl⟩)
  · split; exact .inr (.inr rfl); split <;> exact .inr (.inr rfl)

theorem callEvents_cases (op : OpCode) (addr : RegAddr) :
    ∀ (pl : Payload) (slots : List (Fin 16 × HandlerId)) (as : List HandlerAnswer),
      (∀ x ∈ callEvents op addr pl slots as, x.isCall = true) ∧
        (callEvents op addr pl slots as).length ≤ slots.length
  | pl, [], as => by simp [callEvents]
  | pl, (i, h) :: slots, [] => by simp [callEvents]
  | pl, (i, h) :: slots, a :: as => by
    obtain ⟨h1, h2⟩ := callEvents_cases op addr (answerPayload a pl.kind) slots as
    simp only [callEvents, List.mem_cons, List.length_cons]
    refine ⟨?_, by omega⟩
    rintro x (rfl | hx); rfl; exact h1 x hx

theorem occupied_length_le (slots : Vector (Option HandlerId) 16) : (occupied slots).length ≤ 16 := by
  unfold occupied
  exact (List.length_filterMap_le _ _).trans (by simp)

theorem readResponse_isResponse (c : Bool) (pl : Payload) :
    IsResponse (readResponse c pl) ∧ (readResponse c pl).length ≤ 31 := by
  unfold readResponse IsResponse
  cases c with
  | false => simp
  | true =>
    cases pl with
    | none => simp [readBytes]
    | u8 v => simp [readBytes]
    | u16 v => exact ⟨.inr (.inr (.inr (.inr (.inl ⟨v, rfl⟩)))), by simp [readBytes, bytesOfHalf]⟩
    | u32 v => exact ⟨.inr (.inr (.inr (.inr (.inr (.inl ⟨v, rfl⟩))))), by simp [readBytes, bytesOfLong]⟩
    | mb n d =>
      by_cases h : n.toNat ≤ 29
      · simp only [readBytes, Config.maxMb, show ¬ n.toNat > 29 by omega, if_false, if_true]
        have hl : (memRead d 0 n.toNat).length = n.toNat := by simp [memRead]; omega
        refine ⟨?_, by simp; omega⟩
        right; right; right; right; right; right; left
        exact ⟨n, _, hl.symm, by omega, rfl⟩
      · simp [readBytes, Config.maxMb, show n.toNat > 29 by omega]

/-- What a frame's instruction that completes has done: calls, one response, and S.PB. -/
structure FrameEffect (s t : State) : Prop where
  sync      : t.sync = s.sync
  slots     : t.slots = s.slots
  hostQueue : t.hostQueue = s.hostQueue
  goesOn    : t.hostGoesOn = s.hostGoesOn
  tmo       : t.tmo = s.tmo
  frame     : t.frame = s.frame
  out       : ∃ calls bytes, t.trace = s.trace ++ (calls ++ bytes.map TraceItem.tx) ∧
    (∀ x ∈ calls, x.isCall = true) ∧ calls.length ≤ 16 ∧ IsResponse bytes ∧ bytes.length ≤ 31

theorem exec_frameInstr_effect {op : OpCode} {addr : RegAddr} {p : List Byte} {s t : State}
    (h : exec (frameInstr op addr p) s = .next t) : FrameEffect s t := by
  obtain ⟨op, addr, he⟩ | ⟨op, addr, pl, he⟩ | he := exec_frameInstr_cases op addr p s
  · obtain h' | ⟨as, d, -, -, h'⟩ := readOp_cases op addr s
    · rw [he, h'] at h; cases h
    · rw [he, h'] at h; cases h
      obtain ⟨a, b⟩ := callEvents_cases op addr (cleared (kindOf op)) (occupied s.slots) as
      exact ⟨rfl, rfl, rfl, rfl, rfl, rfl, _, _, List.append_assoc .., a, b.trans (occupied_length_le _),
        (readResponse_isResponse _ _).1, (readResponse_isResponse _ _).2⟩
  · obtain h' | ⟨as, d, -, -, h'⟩ := writeOp_cases op addr pl s
    · rw [he, h'] at h; cases h
    · rw [he, h'] at h; cases h
      obtain ⟨a, b⟩ := callEvents_cases op addr pl (occupied s.slots) as
      exact ⟨rfl, rfl, rfl, rfl, rfl, rfl, _, [0x06], List.append_assoc .., a, b.trans (occupied_length_le _),
        by simp [IsResponse], by simp⟩
  · rw [he, reservedOp_eq] at h; cases h
    exact ⟨rfl, rfl, rfl, rfl, rfl, rfl, [], [0x0F], by simp, by simp, by simp, by simp [IsResponse], by simp⟩

end Sys2Proof.Machine
end

