-- ==== Sys2Proof/Laws/PerInstr.lean ====
section
/-! SUPPORT. Statements about every instruction as syntax, one lemma per constructor. -/

namespace Sys2Proof.Laws.WireLength

/-- The number of bytes of an encoded instruction on the wire (R84); a host command has none. -/
def wireLength : Encoded → Nat
  | .syncByte _ => 1
  | .frame bytes => bytes.length
  | .host _ => 0

/-- A well-formed instruction takes at most 32 bytes on the wire, and at most 6 unless it is a WRMB (R84, R86). -/
def Statement (i : Instr) : Prop :=
  i.wellFormed = true → wireLength (encode i) ≤ 32 ∧ ((∀ addr data, i ≠ .wrmb addr data) → wireLength (encode i) ≤ 6)

theorem syncreq : Statement .syncreq := fun _ => by simp [encode, wireLength]
theorem syncckreq : Statement .syncckreq := fun _ => by simp [encode, wireLength]
theorem discard (b : Byte) : Statement (.discard b) := fun _ => by simp [encode, wireLength]
theorem rd8 (addr : RegAddr) : Statement (.rd8 addr) := fun _ => by simp [encode, wireLength, headerBytes]
theorem rd16 (addr : RegAddr) : Statement (.rd16 addr) := fun _ => by simp [encode, wireLength, headerBytes]
theorem rd32 (addr : RegAddr) : Statement (.rd32 addr) := fun _ => by simp [encode, wireLength, headerBytes]
theorem rdmb (addr : RegAddr) : Statement (.rdmb addr) := fun _ => by simp [encode, wireLength, headerBytes]
theorem wr8 (addr : RegAddr) (v : Byte) : Statement (.wr8 addr v) := fun _ => by
  simp [encode, wireLength, headerBytes]
theorem wr16 (addr : RegAddr) (v : Half) : Statement (.wr16 addr v) := fun _ => by
  simp [encode, wireLength, headerBytes, bytesOfHalf]
theorem wr32 (addr : RegAddr) (v : Long) : Statement (.wr32 addr v) := fun _ => by
  simp [encode, wireLength, headerBytes, bytesOfLong]
theorem wrmb (addr : RegAddr) (data : List Byte) : Statement (.wrmb addr data) := fun h => by
  simp only [Instr.wellFormed, decide_eq_true_eq, Config.maxMb] at h
  exact ⟨by simp [encode, wireLength, headerBytes]; omega, fun hn => absurd rfl (hn addr data)⟩
theorem rsvd8to15 (o : BitVec 3) (addr : RegAddr) : Statement (.rsvd8to15 o addr) := fun _ => by
  simp [encode, wireLength, headerBytes]
theorem rsvd16to31 (o : BitVec 4) (addr : RegAddr) : Statement (.rsvd16to31 o addr) := fun _ => by
  simp [encode, wireLength, headerBytes]
theorem rsvd32to63 (o : BitVec 5) (addr : RegAddr) : Statement (.rsvd32to63 o addr) := fun _ => by
  simp [encode, wireLength, headerBytes]
theorem resync : Statement .resync := fun _ => by simp [encode, wireLength]
theorem reset : Statement .reset := fun _ => by simp [encode, wireLength]
theorem poll : Statement .poll := fun _ => by simp [encode, wireLength]
theorem pending : Statement .pending := fun _ => by simp [encode, wireLength]
theorem register (h : HandlerId) : Statement (.register h) := fun _ => by simp [encode, wireLength]
theorem unregister (h : HandlerId) : Statement (.unregister h) := fun _ => by simp [encode, wireLength]
theorem hostIllegal5 : Statement .hostIllegal5 := fun _ => by simp [encode, wireLength]
theorem hostIllegal6to7 (c : BitVec 1) : Statement (.hostIllegal6to7 c) := fun _ => by simp [encode, wireLength]

end Sys2Proof.Laws.WireLength
end

