-- ==== Sys2Proof/Laws/Step.lean ====
section
/-! SUPPORT. What one step can do, said once: its shape for a host command, and the ways a poll ends. -/

namespace Sys2Proof.Machine

/-- A step from P_IDLE with a command to run. -/
theorem step_of_command {s : State} {w : HostWord} {q : List HostWord} (h : s.phase = .idle)
    (hq : s.hostQueue = w :: q) :
    step s = andThen (exec (decodeHost w) { s with hostQueue := q, trace := s.trace ++ [.command (decodeHost w)] }) continuePoll := by
  simp only [step, if_pos h, runCommand, nextCommand, hq]; rfl

/-- A step from P_IDLE beyond the queue's end, where HOST goes on: a free command runs as a queued one does. -/
theorem step_of_freeCommand {s : State} (h : s.phase = .idle) (hq : s.hostQueue = []) (hg : s.hostGoesOn = true) :
    step s = step { s with hostQueue := [freeCommand s.draws], draws := s.draws + 1 } := by
  simp only [step, h, if_true, runCommand, nextCommand, hq, hg]

/-- A step from P_IDLE with no command to run. -/
theorem step_of_noCommand {s : State} (h : s.phase = .idle) (hq : s.hostQueue = []) (hg : s.hostGoesOn = false) :
    step s = .next s := by
  simp [step, h, runCommand, nextCommand, hq, hg]

theorem decodeHost_of_poll {w : HostWord} (h : w.cmd = 1) : decodeHost w = .poll := by simp [decodeHost, h]

/-- exec of POLL: it ends, or it stands at its first read. -/
theorem exec_poll_cases (s : State) : ∃ b t, exec .poll s = .next t ∧ t.sync = s.sync ∧ t.tmo = s.tmo ∧
    t.pb = s.pb ∧ t.slots = s.slots ∧ t.frame = s.frame ∧ t.hostQueue = s.hostQueue ∧ t.hostGoesOn = s.hostGoesOn ∧ t.rxScript = s.rxScript ∧
    t.replyScript = s.replyScript ∧
    ((b = false ∧ t.trace = s.trace ++ [.pend b, .result .none] ∧ t.phase = s.phase) ∨
     (b = true ∧ t.trace = s.trace ++ [.pend b] ∧ t.phase = if s.sync = .unsync then .syncByte else .hdr1)) := by
  obtain ⟨b, d, hp⟩ := rxPending_cases s
  simp only [exec, execPoll, enterPoll, hp]
  cases b with
  | false => exact ⟨false, _, rfl, rfl, rfl, rfl, rfl, rfl, rfl, rfl, rfl, rfl, .inl ⟨rfl, by simp [finishCommand], rfl⟩⟩
  | true => exact ⟨true, _, rfl, rfl, rfl, rfl, rfl, rfl, rfl, rfl, rfl, rfl, .inr ⟨rfl, rfl, rfl⟩⟩

/-- A POLL with a byte pending, up to its first read. -/
theorem step_of_polls {s : State} {w : HostWord} {q : List HostWord} {p : List Bool} {r : List RxAnswer}
    (h : Polls s w q p r) :
    step s = continuePoll { polled s q p r [] with phase := if s.sync = .unsync then .syncByte else .hdr1 } := by
  obtain ⟨hi, hq, hw, hp, rfl⟩ := h
  rw [step_of_command hi hq, decodeHost_of_poll hw]
  simp [exec, execPoll, enterPoll, rxPending, hp, State.setPhase, andThen, polled]

/-- Recovery raised in a synchronized state, to the end of the poll. -/
theorem completePoll_trap_synced {cause : Cause} {s : State} (h : s.sync ≠ .unsync) :
    completePoll (.trap cause s) = .next { s with
      phase := .idle, sync := .unsync, trace := s.trace ++ (floodEvents ++ [.result .none]) } := by
  simp only [completePoll]; rw [desync_synced (.inr h)]
  simp [endPoll, finishCommand, State.observe, State.setPhase, floodEvents]

/-- Everything the end of a poll that reads a frame can do: reads, calls, and one response, with S.SYNC unchanged; or
reads and the flood, with S.SYNC UNSYNC. -/
theorem completePoll_frame_cases {s t : State} {n : Nat} {f : Fetched} (hf : FetchCases s n f)
    (h : completePoll f = .next t) :
    t.slots = s.slots ∧ t.hostQueue = s.hostQueue ∧ t.hostGoesOn = s.hostGoesOn ∧ t.phase = .idle ∧ (s.frame.cnt ≤ 29 → t.frame.cnt ≤ 29) ∧
    ∃ reads calls bytes,
      t.trace = s.trace ++ (reads ++ (calls ++ (bytes.map TraceItem.tx ++ [.result .none]))) ∧
      (∀ x ∈ reads, x.isRead = true) ∧ reads.length ≤ n ∧ (∀ x ∈ calls, x.isCall = true) ∧ calls.length ≤ 16 ∧
      IsResponse bytes ∧ bytes.length ≤ 34 ∧
      ((t.sync = s.sync ∧ (∀ i u, f = .instr i u → t.tmo = u.tmo) ∧ (s.sync ≠ .unsync → ∃ i u, f = .instr i u)) ∨
       (s.sync ≠ .unsync ∧ t.sync = .unsync ∧ calls = [] ∧ bytes = List.replicate 34 0xFF)) := by
  obtain ⟨⟨hsy, hsl, hq, hg, -, -, reads, htr, hr, hl⟩, hc, hi⟩ := hf
  cases f with
  | trap c u =>
    simp only [completePoll] at h; cases h
    simp only [Fetched.state] at *
    by_cases hs : u.sync = .unsync
    · rw [desync_unsynced hs]
      exact ⟨hsl, hq, hg, rfl, hc, reads, [], [], by simp [endPoll, finishCommand, htr], hr, hl, by simp, by simp,
        by simp [IsResponse], by simp, .inl ⟨hsy, by simp, fun h => absurd (hsy ▸ hs) h⟩⟩
    · rw [desync_synced (.inr hs)]
      exact ⟨hsl, hq, hg, rfl, hc, reads, [], List.replicate 34 0xFF, by simp [endPoll, finishCommand, htr], hr, hl,
        by simp, by simp, by simp [IsResponse], by simp, .inr ⟨hsy ▸ hs, rfl, rfl, rfl⟩⟩
  | instr i u =>
    simp only [Fetched.state] at *
    obtain ⟨hfl, -⟩ := hi i u rfl
    simp only [completePoll] at h
    obtain ⟨op, addr, p, rfl⟩ | rfl := hfl
    · cases he : exec (frameInstr op addr p) u with
      | next v =>
        rw [he] at h; simp only [andThen] at h; cases h
        obtain ⟨a, b, c, g, d, e, calls, bytes, h1, h2, h3, h4, h5⟩ := exec_frameInstr_effect he
        refine ⟨b.trans hsl, c.trans hq, g.trans hg, rfl, fun x => ?_, reads, calls, bytes,
          by simp [endPoll, finishCommand, h1, htr], hr, hl, h2, h3, h4, by omega,
          .inl ⟨a.trans hsy, fun i u hh => ?_, fun _ => ⟨_, _, rfl⟩⟩⟩
        · simpa [endPoll, finishCommand, e] using hc x
        · cases hh; exact d
      | fault r => rw [he] at h; cases h
      | refused r => rw [he] at h; cases h
    · simp only [exec, execResync, andThen] at h; cases h
      by_cases hs : u.sync = .unsync
      · rw [desync_unsynced hs]
        exact ⟨hsl, hq, hg, rfl, hc, reads, [], [], by simp [endPoll, finishCommand, htr], hr, hl, by simp, by simp,
          by simp [IsResponse], by simp,
          .inl ⟨hsy, fun i u hh => by cases hh; rfl, fun h => absurd (hsy ▸ hs) h⟩⟩
      · rw [desync_synced (.inr hs)]
        exact ⟨hsl, hq, hg, rfl, hc, reads, [], List.replicate 34 0xFF, by simp [endPoll, finishCommand, htr], hr, hl,
          by simp, by simp, by simp [IsResponse], by simp, .inr ⟨hsy ▸ hs, rfl, rfl, rfl⟩⟩

/-- Everything the end of a poll that reads a sync byte can do. -/
theorem completePoll_syncByte_cases {s t : State} (h : completePoll (fetchSyncByte s) = .next t) :
    t.slots = s.slots ∧ t.hostQueue = s.hostQueue ∧ t.hostGoesOn = s.hostGoesOn ∧ t.phase = .idle ∧ t.frame = s.frame ∧
    ∃ r bytes, t.trace = s.trace ++ (rxEvent r :: (bytes.map TraceItem.tx ++ [.result .none])) ∧ t.tmo = tmoOf r ∧
      ((r = .byte 0xAA ∧ bytes = [0x55] ∧ t.sync = .sync) ∨ (r = .byte 0xA5 ∧ bytes = [0x55] ∧ t.sync = .syncCk) ∨
       (bytes = [] ∧ t.sync = s.sync ∧ (s.sync ≠ .unsync → r ≠ .timeout)) ∨
       (s.sync ≠ .unsync ∧ t.sync = .unsync ∧ bytes = List.replicate 34 0xFF)) := by
  obtain ⟨r, d, hr⟩ := rxRead_cases s
  simp only [fetchSyncByte, hr] at h
  cases r with
  | timeout =>
    simp only [completePoll] at h
    by_cases hs : s.sync = .unsync
    · rw [desync_unsynced (by exact hs)] at h; cases h
      exact ⟨rfl, rfl, rfl, rfl, rfl, .timeout, [], by simp [endPoll, finishCommand], rfl,
        .inr (.inr (.inl ⟨rfl, rfl, fun h => absurd hs h⟩))⟩
    · rw [desync_synced (.inr (by exact hs))] at h; cases h
      exact ⟨rfl, rfl, rfl, rfl, rfl, .timeout, _, by simp [endPoll, finishCommand], rfl,
        .inr (.inr (.inr ⟨hs, rfl, rfl⟩))⟩
  | byte b =>
    simp only [completePoll, decodeSyncByte] at h
    split at h
    · cases h; rename_i hb; rw [hb]
      exact ⟨rfl, rfl, rfl, rfl, rfl, _, [0x55], by simp [endPoll, finishCommand, handshake, txWrite]; exact ⟨rfl, rfl⟩, rfl,
        .inl ⟨rfl, rfl, rfl⟩⟩
    · split at h
      · cases h; rename_i hb; rw [hb]
        exact ⟨rfl, rfl, rfl, rfl, rfl, _, [0x55], by simp [endPoll, finishCommand, handshake, txWrite]; exact ⟨rfl, rfl⟩,
          rfl, .inr (.inl ⟨rfl, rfl, rfl⟩)⟩
      · cases h
        exact ⟨rfl, rfl, rfl, rfl, rfl, .byte b, [], by simp [endPoll, finishCommand, rxEvent], rfl,
          .inr (.inr (.inl ⟨rfl, rfl, by simp⟩))⟩

/-! ### Sent bytes -/

theorem sentBytes_append (l m : List TraceItem) : sentBytes (l ++ m) = sentBytes l ++ sentBytes m := by simp [sentBytes]

theorem sentBytes_of_reads {l : List TraceItem} (h : ∀ x ∈ l, x.isRead = true) : sentBytes l = [] := by
  simp [sentBytes]; intro x hx; have := h x hx; cases x <;> simp [TraceItem.isRead, TraceItem.sent] at *

theorem sentBytes_of_calls {l : List TraceItem} (h : ∀ x ∈ l, x.isCall = true) : sentBytes l = [] := by
  simp [sentBytes]; intro x hx; have := h x hx; cases x <;> simp [TraceItem.isCall, TraceItem.sent] at *

theorem sentBytes_tx (l : List Byte) : sentBytes (l.map .tx) = l := by
  induction l with
  | nil => rfl
  | cons b l ih => simp [sentBytes, TraceItem.sent] at *; exact ih

end Sys2Proof.Machine
end

