-- ==== Sys2Proof/Tests/Slice0.lean ====
section
/-! SUPPORT. The model's own tests: ill-formed terms refused, words written out from the spec's encodings, one step of
each instruction against spec/95_test_vectors.md, and for every statement with hypotheses a state that meets them. -/

namespace Sys2Proof.Tests

open Sys2Proof Sys2Proof.Machine

/-! ### Well-formedness -/

theorem test_wellFormed_discard_handshake :
    (Instr.discard 0xAA).wellFormed = false ∧ (Instr.discard 0xA5).wellFormed = false ∧
    (Instr.discard 0xFF).wellFormed = true := by decide

theorem test_wellFormed_wrmb_length :
    (Instr.wrmb 0 (List.replicate 30 1)).wellFormed = false ∧
    (Instr.wrmb 0 (List.replicate 29 1)).wellFormed = true := by decide

theorem test_wellFormed_escape_is_no_reserved_op :
    (Instr.rsvd32to63 31 0x3FF).wellFormed = false ∧ (Instr.rsvd32to63 31 0x3FE).wellFormed = true ∧
    (Instr.rsvd32to63 30 0x3FF).wellFormed = true := by decide

/-! ### Decoding: one word of each row, written out from spec/30_encoding.md R81, R82, R84, R95 -/

theorem test_decode_syncreq : decode (.syncByte 0b10101010) = .ok (.syncreq, []) := by decide
theorem test_decode_syncckreq : decode (.syncByte 0b10100101) = .ok (.syncckreq, []) := by decide
theorem test_decode_discard : decode (.syncByte 0b01010101) = .ok (.discard 0x55, []) := by decide
-- op 000000, addr 1100000111
theorem test_decode_rd8 : decode (.frame [0b00000011, 0b00000111]) = .ok (.rd8 0x307, []) := by decide
-- op 000001, addr 1000000001 (L2.1)
theorem test_decode_rd16 : decode (.frame [0b00000110, 0b00000001]) = .ok (.rd16 0x201, []) := by decide
-- op 000010, addr 1111111111: no escape (L2.1)
theorem test_decode_rd32 : decode (.frame [0b00001011, 0b11111111]) = .ok (.rd32 0x3FF, []) := by decide
-- op 000011, addr 0000010000; the byte after the header is the next frame's (R147)
theorem test_decode_rdmb : decode (.frame [0b00001100, 0b00010000, 0x29]) = .ok (.rdmb 0x010, [0x29]) := by decide
-- op 000100, addr 0000000101 (scenario A)
theorem test_decode_wr8 : decode (.frame [0b00010000, 0b00000101, 0x2A]) = .ok (.wr8 0x005 0x2A, []) := by decide
-- op 000101, addr 1111111110; the first payload byte is the high one (L2.1)
theorem test_decode_wr16 :
    decode (.frame [0b00010111, 0b11111110, 0x12, 0x34]) = .ok (.wr16 0x3FE 0x1234, []) := by decide
-- op 000110, addr 0100000000 (V-O7)
theorem test_decode_wr32 :
    decode (.frame [0b00011001, 0b00000000, 0xDE, 0xAD, 0xBE, 0xEF, 0x77]) = .ok (.wr32 0x100 0xDEADBEEF, [0x77]) := by
  decide
-- op 000111, addr 1010101011, three bytes (V-O14)
theorem test_decode_wrmb :
    decode (.frame [0b00011110, 0b10101011, 0b00000011, 1, 2, 3]) = .ok (.wrmb 0x2AB [1, 2, 3], []) := by decide
-- op 001001
theorem test_decode_rsvd8to15 :
    decode (.frame [0b00100110, 0b00000001]) = .ok (.rsvd8to15 0b001 0x201, []) := by decide
-- op 010101, addr 0100000000: 0x55 as B1 (L2.1)
theorem test_decode_rsvd16to31 :
    decode (.frame [0b01010101, 0b00000000]) = .ok (.rsvd16to31 0b0101 0x100, []) := by decide
-- op 111111, addr 1111111110: no escape (L2.1)
theorem test_decode_rsvd32to63 :
    decode (.frame [0b11111111, 0b11111110]) = .ok (.rsvd32to63 0b11111 0x3FE, []) := by decide
theorem test_decode_resync : decode (.frame [0b11111111, 0b11111111]) = .ok (.resync, []) := by decide
theorem test_decode_reset (h : HandlerId) : decode (.host ⟨0b000, h⟩) = .ok (.reset, []) := rfl
theorem test_decode_poll (h : HandlerId) : decode (.host ⟨0b001, h⟩) = .ok (.poll, []) := rfl
theorem test_decode_pending (h : HandlerId) : decode (.host ⟨0b010, h⟩) = .ok (.pending, []) := rfl
theorem test_decode_register (h : HandlerId) : decode (.host ⟨0b011, h⟩) = .ok (.register h, []) := rfl
theorem test_decode_unregister (h : HandlerId) : decode (.host ⟨0b100, h⟩) = .ok (.unregister h, []) := rfl
theorem test_decode_hostIllegal5 (h : HandlerId) : decode (.host ⟨0b101, h⟩) = .ok (.hostIllegal5, []) := rfl
theorem test_decode_hostIllegal6to7 (h : HandlerId) :
    decode (.host ⟨0b110, h⟩) = .ok (.hostIllegal6to7 0, []) ∧
    decode (.host ⟨0b111, h⟩) = .ok (.hostIllegal6to7 1, []) := by simp [decode, decodeHost]

/-- What is no frame is rejected by name. -/
theorem test_decode_rejects_by_name :
    decode (.frame []) = .error .missingHeader ∧ decode (.frame [0xFF]) = .error .missingHeader ∧
    decode (.frame [0x1C, 0x00]) = .error .missingLength ∧
    decode (.frame [0x1C, 0x00, 30, 1]) = .error (.oversizeLength 30) ∧
    decode (.frame [0x19, 0x00, 0xDE, 0xAD]) = .error .missingPayload := by decide

/-- Table words: the header word is B1 in bits 15..8; the priority-0 row RESYNC; a host word; a sync byte. -/
theorem test_decodeTableWord :
    decodeTableWord 16 0x0601 = some (.rd16 0x201) ∧ decodeTableWord 16 0x1C05 = some (.wrmb 5 []) ∧
    decodeTableWord 16 0xFFFF = some .resync ∧ decodeTableWord 16 0xFCFF = some (.rsvd32to63 31 0x0FF) ∧
    decodeTableWord 8 3 = some (.register Config.firstHandler) ∧ decodeTableWord 8 0xA5 = some .syncckreq := by decide

/-! ### One step of each instruction -/

/-- Right after RESET, with an empty trace. -/
def base : State := { State.reset with trace := [] }

def pollWord : HostWord := ⟨1, Config.firstHandler⟩

/-- HOST's next command is POLL, a byte is pending, and TRANSPORT answers the reads with rx. -/
def pollState (v : SyncState) (rx : List RxAnswer) : State :=
  { base with sync := v, hostQueue := [pollWord], pendScript := [true], rxScript := rx }

def hostState (w : HostWord) : State := { base with hostQueue := [w] }

/-- Handlers in the first slots. -/
def slotsOf (hs : List HandlerId) : Vector (Option HandlerId) 16 := Vector.ofFn fun i : Fin 16 => hs[i.val]?

/-- The state with these handlers in the table and these answers to come. -/
def handledBy (hs : List HandlerId) (as : List HandlerAnswer) (s : State) : State :=
  { s with slots := slotsOf hs, replyScript := as.map .returns }

/-- Some handler. A test that needs others takes any. -/
def hA : HandlerId := Config.firstHandler

def answer (claimed : Bool) : HandlerAnswer := ⟨claimed, 0, 0, 0, 0, zeroData⟩

/-- What a test reads of an outcome: the trace without the command, S.SYNC, S.TMO; nothing of a stop. -/
def seen : Host.Outcome State Fault Refusal → Option (List TraceItem × SyncState × Bool)
  | .next t => some (t.trace.drop 1, t.sync, t.tmo)
  | .fault _ => none
  | .refused _ => none

/-- S.PB and the occupied slots after an outcome. -/
def kept : Host.Outcome State Fault Refusal → Option (Payload × List (Fin 16 × HandlerId))
  | .next t => some (t.pb, occupied t.slots)
  | .fault _ => none
  | .refused _ => none

-- V-S1
theorem test_syncreq : seen (step (pollState .unsync [.byte 0xAA])) =
    some ([.pend true, .rx 0xAA, .tx 0x55, .result .none], .sync, false) := by decide
-- V-S2
theorem test_syncckreq : seen (step (pollState .unsync [.byte 0xA5])) =
    some ([.pend true, .rx 0xA5, .tx 0x55, .result .none], .syncCk, false) := by decide
-- V-S3
theorem test_discard : seen (step (pollState .unsync [.byte 0x55])) =
    some ([.pend true, .rx 0x55, .result .none], .unsync, false) := by decide
-- V-S5
theorem test_timeout_unsync : seen (step (pollState .unsync [.timeout])) =
    some ([.pend true, .rxTimeout, .result .none], .unsync, true) := by decide
-- V-R6, with one handler three times: the first call does not claim but changes the payload, the second claims, there is no third
theorem test_rd8_first_claim :
    seen (step (handledBy [hA, hA, hA] [{ answer false with u8 := 0x11 }, { answer true with u8 := 0x22 },
      { answer true with u8 := 0x33 }] (pollState .sync [.byte 0x00, .byte 0x00]))) =
    some ([.pend true, .rx 0x00, .rx 0x00, .call 0 hA 0 0 (.u8 0) false (.u8 0x11),
      .call 1 hA 0 0 (.u8 0x11) true (.u8 0x22), .tx 0x06, .tx 0x22, .result .none], .sync, false) := by decide
-- scenario C: nobody claims
theorem test_rd8_unclaimed :
    seen (step (pollState .sync [.byte 0x00, .byte 0x63])) =
    some ([.pend true, .rx 0x00, .rx 0x63, .tx 0x0F, .result .none], .sync, false) := by decide
-- V-O3
theorem test_rd16 :
    seen (step (handledBy [hA] [{ answer true with u16 := 0xBEEF }] (pollState .sync [.byte 0x06, .byte 0x01]))) =
    some ([.pend true, .rx 0x06, .rx 0x01, .call 0 hA 1 0x201 (.u16 0) true (.u16 0xBEEF),
      .tx 0x06, .tx 0xBE, .tx 0xEF, .result .none], .sync, false) := by decide
-- V-O4
theorem test_rd32 :
    seen (step (handledBy [hA] [{ answer true with u32 := 0x12345678 }]
      (pollState .syncCk [.byte 0x0B, .byte 0xFF]))) =
    some ([.pend true, .rx 0x0B, .rx 0xFF, .call 0 hA 2 0x3FF (.u32 0) true (.u32 0x12345678),
      .tx 0x06, .tx 0x12, .tx 0x34, .tx 0x56, .tx 0x78, .result .none], .syncCk, false) := by decide

/-- The answer MB(size, [0xAB, 0xCD, 0, ...]), claimed. -/
def multibyte (size : Byte) : HandlerAnswer :=
  { answer true with size := size, data := (zeroData.set 0 0xAB).set 1 0xCD }

-- V-O9
theorem test_rdmb :
    seen (step (handledBy [hA] [multibyte 2] (pollState .sync [.byte 0x0C, .byte 0x00]))) =
    some ([.pend true, .rx 0x0C, .rx 0x00, .call 0 hA 3 0 (.mb 0 zeroData) true (.mb 2 (multibyte 2).data),
      .tx 0x06, .tx 0x02, .tx 0xAB, .tx 0xCD, .result .none], .sync, false) := by decide
-- V-O12: a size of 30 is refused
theorem test_rdmb_oversize :
    seen (step (handledBy [hA] [multibyte 30] (pollState .sync [.byte 0x0C, .byte 0x00]))) =
    some ([.pend true, .rx 0x0C, .rx 0x00, .call 0 hA 3 0 (.mb 0 zeroData) true (.mb 30 (multibyte 30).data),
      .tx 0x0F, .result .none], .sync, false) := by decide
-- V-O5
theorem test_wr8 :
    seen (step (handledBy [hA] [{ answer false with u8 := 0x2A }]
      (pollState .sync [.byte 0x10, .byte 0x05, .byte 0x2A]))) =
    some ([.pend true, .rx 0x10, .rx 0x05, .rx 0x2A, .call 0 hA 4 5 (.u8 0x2A) false (.u8 0x2A),
      .tx 0x06, .result .none], .sync, false) := by decide
-- V-R8 and V-R7, with one handler twice: the first call claims and changes the payload, the second takes place all the
-- same and receives the change
theorem test_wr16 :
    seen (step (handledBy [hA, hA] [{ answer true with u16 := 0xFFFF }, answer false]
      (pollState .sync [.byte 0x14, .byte 0x10, .byte 0x01, .byte 0x02]))) =
    some ([.pend true, .rx 0x14, .rx 0x10, .rx 0x01, .rx 0x02, .call 0 hA 5 0x010 (.u16 0x0102) true (.u16 0xFFFF),
      .call 1 hA 5 0x010 (.u16 0xFFFF) false (.u16 0), .tx 0x06, .result .none], .sync, false) := by decide
-- V-O8: 0xFF data bytes are no escape
theorem test_wr32 :
    seen (step (handledBy [hA] [answer false] (pollState .sync (List.replicate 1 (.byte 0x1B) ++
      List.replicate 5 (.byte 0xFF))))) =
    some ([.pend true, .rx 0x1B, .rx 0xFF, .rx 0xFF, .rx 0xFF, .rx 0xFF, .rx 0xFF,
      .call 0 hA 6 0x3FF (.u32 0xFFFFFFFF) false (.u32 0), .tx 0x06, .result .none], .sync, false) := by decide
-- V-O14, with an empty table (V-R5): S.PB is the payload, zero from index 3 on
theorem test_wrmb :
    kept (step (pollState .sync [.byte 0x1E, .byte 0xAB, .byte 3, .byte 1, .byte 2, .byte 3])) =
    some (.mb 3 (((zeroData.set 0 1).set 1 2).set 2 3), []) := by decide
-- V-D9: length 30
theorem test_wrmb_oversize :
    seen (step (pollState .sync [.byte 0x1C, .byte 0x00, .byte 0x1E, .byte 0x10])) =
    some ([.pend true, .rx 0x1C, .rx 0x00, .rx 0x1E] ++ List.replicate 34 (.tx 0xFF) ++ [.result .none],
      .unsync, false) := by decide
-- V-D14 and V-O15: the byte after the header is left
theorem test_rsvd8to15 : seen (step (pollState .sync [.byte 0x20, .byte 0x00, .byte 0x2A])) =
    some ([.pend true, .rx 0x20, .rx 0x00, .tx 0x0F, .result .none], .sync, false) := by decide
-- L2.1: 0x55 as B1
theorem test_rsvd16to31 : seen (step (pollState .syncCk [.byte 0x55, .byte 0x00])) =
    some ([.pend true, .rx 0x55, .rx 0x00, .tx 0x0F, .result .none], .syncCk, false) := by decide
-- V-S11
theorem test_rsvd32to63 : seen (step (pollState .sync [.byte 0xAA, .byte 0xAA])) =
    some ([.pend true, .rx 0xAA, .rx 0xAA, .tx 0x0F, .result .none], .sync, false) := by decide
-- V-D4: S.PB is NONE
theorem test_rsvd32to63_pb :
    kept (step { pollState .sync [.byte 0xFF, .byte 0xFE] with pb := .u8 7 }) = some (.none, []) := by decide
-- V-D3
theorem test_resync : seen (step (pollState .sync [.byte 0xFF, .byte 0xFF])) =
    some ([.pend true, .rx 0xFF, .rx 0xFF] ++ List.replicate 34 (.tx 0xFF) ++ [.result .none], .unsync, false) := by
  decide
-- V-D2: a timeout after 0xFF is a timeout
theorem test_resync_timeout : seen (step (pollState .sync [.byte 0xFF, .timeout])) =
    some ([.pend true, .rx 0xFF, .rxTimeout] ++ List.replicate 34 (.tx 0xFF) ++ [.result .none], .unsync, true) := by
  decide
-- V-S8
theorem test_reset : seen (step { handledBy [hA] [] (hostState ⟨0, hA⟩) with sync := .sync, tmo := true }) =
    some (List.replicate 34 (.tx 0xFF) ++ [.result .none], .unsync, false) := by decide
theorem test_reset_empties :
    kept (step { handledBy [hA] [] (hostState ⟨0, hA⟩) with pb := .u8 1 }) = some (.none, []) := by decide
-- V-S6
theorem test_poll_nothing_pending :
    seen (step { pollState .sync [] with pendScript := [false] }) =
    some ([.pend false, .result .none], .sync, false) := by decide
-- V-S7
theorem test_pending :
    seen (step { hostState ⟨2, hA⟩ with pendScript := [true], rxScript := [.byte 0x10] }) =
    some ([.pend true, .result (.pending true)], .unsync, false) := by decide
-- R172's example: [A, empty, C]
theorem test_register (h hC : HandlerId) :
    (fun o => (seen o, kept o)) (step { hostState ⟨3, h⟩ with slots := (slotsOf [hA]).set 2 (some hC) }) =
    (some ([.result (.code 1)], .unsync, false), some (.none, [(0, hA), (1, h), (2, hC)])) := rfl
-- V-R1: the 17th
theorem test_register_full :
    seen (step { hostState ⟨3, hA⟩ with slots := Vector.replicate 16 (some hA) }) =
    some ([.result (.code 0x10)], .unsync, false) := by decide
-- R173: the lowest of two copies
theorem test_unregister :
    (fun o => (seen o, kept o)) (step { hostState ⟨4, hA⟩ with slots := slotsOf [hA, hA] }) =
    (some ([.result (.code 0)], .unsync, false), some (.none, [(1, hA)])) := by decide
-- V-R2, for a block in which 1 names an identity too
theorem test_unregister_absent (named : Config.namesHandler 1 = true) :
    let hB : HandlerId := ⟨1, .inr named⟩
    (fun o => (seen o, kept o)) (step { hostState ⟨4, hB⟩ with slots := slotsOf [hA] }) =
    (some ([.result (.code 0x10)], .unsync, false), some (.none, [(0, hA)])) := rfl
-- V-H2
theorem test_hostIllegal5 : seen (step (hostState ⟨5, hA⟩)) =
    some ([.result (.code 0x1F)], .unsync, false) := by decide
theorem test_hostIllegal6to7 : seen (step (hostState ⟨7, hA⟩)) =
    some ([.result (.code 0x1F)], .unsync, false) := by decide

/-- withFetchWord: the very next step after reset runs the instruction of the word (log 13). -/
theorem test_withFetchWord :
    seen (step (State.reset.withFetchWord 16 0x2000)) =
      some (resetTrace.drop 1 ++ [.rx 0x20, .rx 0x00, .tx 0x0F, .result .none], .sync, false) ∧
    seen (step (State.reset.withFetchWord 8 0xAA)) =
      some (resetTrace.drop 1 ++ [.rx 0xAA, .tx 0x55, .result .none], .sync, false) ∧
    seen (step (State.reset.withFetchWord 8 3)) =
      some (resetTrace.drop 1 ++ [.command (.register Config.firstHandler), .result (.code 0)], .unsync, false) := by decide

/-! ### States that meet the hypotheses of the statements -/

/-- The POLL of pollState, in the terms of the statements. -/
theorem polls_pollState (v : SyncState) (rx : List RxAnswer) : Polls (pollState v rx) pollWord [] [] rx :=
  ⟨rfl, rfl, rfl, rfl, rfl⟩

theorem witness_EncodedInstructionDecodesToItself :
    (Instr.wrmb 0x3FF (List.replicate 29 0xFF)).wellFormed = true ∧ (Instr.wrmb 0 []).wellFormed = true ∧
    (Instr.discard 0).wellFormed = true ∧ (Instr.rsvd32to63 31 0x3FE).wellFormed = true := by decide

theorem witness_HeadersAndOpAddrPairsCorrespond :
    headerBytes 63 0x3FF = [0xFF, 0xFF] ∧ headerOp 0xFF = 63 ∧ headerAddr 0xFF 0xFF = 0x3FF := by decide

theorem witness_DecodedFrameIsItsEncoding :
    decodeFrame [0x1C, 0x00, 0x00, 0x2A] = .ok (.wrmb 0 [], [0x2A]) := by decide

theorem witness_DecodersFollowTheOpcodeTable :
    decodeFrame [0xFF, 0xFF, 0x2A] = .ok (.resync, [0x2A]) ∧
    decodeFrame [0xFF, 0xFE] = .ok (.rsvd32to63 31 0x3FE, []) := by decide

/-- Each clause, at the ends of its range of ops; the first at ops 0, 3, 8 and 63. -/
theorem witness_FrameLengthFollowsFromOp :
    (decodeFrame [0x00, 0x00] = .ok (.rd8 0, []) ∧ (headerOp 0x00).toNat = 0) ∧
    (decodeFrame [0x0C, 0x00] = .ok (.rdmb 0, []) ∧ (headerOp 0x0C).toNat = 3) ∧
    (decodeFrame [0x20, 0x00] = .ok (.rsvd8to15 0 0, []) ∧ (headerOp 0x20).toNat = 8) ∧
    (decodeFrame [0xFF, 0xFE] = .ok (.rsvd32to63 31 0x3FE, []) ∧ (headerOp 0xFF).toNat = 63) ∧
    (decodeFrame [0x10, 0x00, 1] = .ok (.wr8 0 1, []) ∧ headerOp 0x10 = 4) ∧
    (decodeFrame [0x14, 0x00, 1, 2] = .ok (.wr16 0 0x0102, []) ∧ headerOp 0x14 = 5) ∧
    (decodeFrame [0x18, 0x00, 1, 2, 3, 4] = .ok (.wr32 0 0x01020304, []) ∧ headerOp 0x18 = 6) ∧
    (decodeFrame [0x1C, 0x00, 0] = .ok (.wrmb 0 [], []) ∧ headerOp 0x1C = 7) ∧
    decodeFrame ([0x1F, 0xFF, 29] ++ List.replicate 29 5) = .ok (.wrmb 0x3FF (List.replicate 29 5), []) := by decide

theorem witness_OnlyOversizeLengthIsIllegal :
    decodeFrame [0x1C, 0x00, 30] = .error (.oversizeLength 30) ∧ headerOp 0x1C = 7 ∧ (30 : Byte).toNat > 29 := by decide

theorem witness_FixedWritePayloadIsBigEndian :
    headerOp 0x13 = 4 ∧ headerOp 0x17 = 5 ∧ headerOp 0x1B = 6 := by decide

theorem witness_MultibytePayloadIsZeroPadded :
    ([] : List Byte).length ≤ 29 ∧ (List.replicate 29 (1 : Byte)).length ≤ 29 := by decide

theorem witness_StepRunsTheDecodedSyncByte :
    Polls (pollState .unsync [.byte 0xAA]) pollWord [] [] (.byte 0xAA :: []) ∧
    (pollState .unsync [.byte 0xAA]).sync = .unsync := ⟨polls_pollState _ _, rfl⟩

theorem witness_SyncReqEntersSync :
    Polls (pollState .unsync [.byte 0xAA, .byte 0x10]) pollWord [] [] (.byte 0xAA :: [.byte 0x10]) ∧
    (pollState .unsync [.byte 0xAA, .byte 0x10]).sync = .unsync := ⟨polls_pollState _ _, rfl⟩

theorem witness_SyncCkReqEntersSyncCk :
    Polls (pollState .unsync [.byte 0xA5]) pollWord [] [] (.byte 0xA5 :: []) ∧
    (pollState .unsync [.byte 0xA5]).sync = .unsync := ⟨polls_pollState _ _, rfl⟩

theorem witness_OtherBytesAreDiscardedWhenUnsync :
    Polls (pollState .unsync [.byte 0xFF]) pollWord [] [] (.byte 0xFF :: []) ∧
    (pollState .unsync [.byte 0xFF]).sync = .unsync ∧ (0xFF : Byte) ≠ 0xAA ∧ (0xFF : Byte) ≠ 0xA5 :=
  ⟨polls_pollState _ _, rfl, by decide, by decide⟩

theorem witness_TimeoutWhenUnsyncSendsNothing :
    Polls (pollState .unsync [.timeout]) pollWord [] [] (.timeout :: []) ∧
    (pollState .unsync [.timeout]).sync = .unsync := ⟨polls_pollState _ _, rfl⟩

/-- The three ways S.SYNC changes: a flood, and each handshake. -/
theorem witness_SyncChangesOnlyByHandshakeOrFlood :
    (∃ t, step (pollState .sync [.timeout]) = .next t ∧ (pollState .sync [.timeout]).phase = .idle ∧
      t.sync ≠ (pollState .sync [.timeout]).sync) ∧
    (∃ t, step (pollState .unsync [.byte 0xAA]) = .next t ∧ t.sync ≠ (pollState .unsync [.byte 0xAA]).sync) ∧
    (∃ t, step (pollState .unsync [.byte 0xA5]) = .next t ∧ t.sync ≠ (pollState .unsync [.byte 0xA5]).sync) :=
  ⟨⟨_, rfl, rfl, by decide⟩, ⟨_, rfl, by decide⟩, ⟨_, rfl, by decide⟩⟩

theorem witness_StepRunsTheHostCommand :
    (hostState ⟨0, hA⟩).phase = .idle ∧ (hostState ⟨0, hA⟩).hostQueue = ⟨0, hA⟩ :: [] ∧ (0 : BitVec 3) ≠ 1 := by
  decide

theorem witness_NoCommandNoChange : base.phase = .idle ∧ base.hostQueue = [] ∧ base.hostGoesOn = false := by decide

/-- HOST goes on beyond an empty queue. -/
def goingOn : State := { base with hostGoesOn := true }

/-- The next command is issued, whatever it is. -/
theorem test_freeCommand : ∃ t, nextCommand goingOn = some (freeCommand 0, t) ∧ t.draws = 1 := ⟨_, rfl, rfl⟩

theorem witness_FreeCommandRunsLikeAQueuedOne :
    goingOn.phase = .idle ∧ goingOn.hostQueue = [] ∧ goingOn.hostGoesOn = true := by decide

theorem witness_InfiniteRunTakesACommandEveryStep :
    goingOn.phase = .idle ∧ HandlersReturn goingOn ∧ goingOn.hostGoesOn = true :=
  ⟨rfl, by simp [HandlersReturn, goingOn, base, State.reset], rfl⟩

theorem witness_EveryFiniteRunReachesItsEnd :
    let s : State := { base with hostQueue := [⟨0, hA⟩, ⟨3, hA⟩, ⟨5, hA⟩] }
    s.phase = .idle ∧ HandlersReturn s ∧ s.hostQueue = [⟨0, hA⟩, ⟨3, hA⟩] ++ [⟨5, hA⟩] :=
  ⟨rfl, by simp [HandlersReturn, base, State.reset], rfl⟩

/-- The four clauses' scripts: a byte, a timeout, and none. -/
theorem witness_ReadWritesTheTimeoutFlag :
    (pollState .sync [.byte 1]).rxScript = .byte 1 :: [] ∧ (pollState .sync [.timeout]).rxScript = .timeout :: [] ∧
    base.rxScript = [] := by decide

theorem witness_PollAsksPendingFirst :
    { base with pendScript := [false] }.pendScript = false :: [] ∧
    (pollState .sync []).pendScript = true :: [] ∧ base.pendScript = [] := by decide

theorem witness_PollWithNothingPendingDoesNothing :
    let s : State := { pollState .sync [] with pendScript := [false] }
    s.phase = .idle ∧ s.hostQueue = pollWord :: [] ∧ pollWord.cmd = 1 ∧ s.pendScript = false :: [] := by decide

theorem witness_PendingReturnsRxPending :
    (pollState .sync []).pendScript = true :: [] ∧ base.pendScript = [] := by decide

/-- At slots 0 and 15, and with a full table. -/
theorem witness_RegisterFillsLowestEmptySlot :
    (base.slots[(0 : Fin 16)] = none ∧ ∀ j : Fin 16, j < 0 → base.slots[j] ≠ none) ∧
    ((slotsOf (List.replicate 15 hA))[(15 : Fin 16)] = none ∧
      ∀ j : Fin 16, j < 15 → (slotsOf (List.replicate 15 hA))[j] ≠ none) ∧
    (∀ j : Fin 16, (slotsOf (List.replicate 16 hA))[j] ≠ none) := by decide

/-- At slots 0 and 15, and with no copy. -/
theorem witness_UnregisterEmptiesLowestMatch :
    ((slotsOf [hA, hA])[(0 : Fin 16)] = some hA ∧ ∀ j : Fin 16, j < 0 → (slotsOf [hA, hA])[j] ≠ some hA) ∧
    ((base.slots.set 15 (some hA))[(15 : Fin 16)] = some hA ∧
      ∀ j : Fin 16, j < 15 → (base.slots.set 15 (some hA))[j] ≠ some hA) ∧
    (∀ j : Fin 16, base.slots[j] ≠ some hA) := by decide

/-- A REGISTER, and a command that is neither REGISTER nor UNREGISTER. -/
theorem witness_AtMostOneSlotChangesPerCommand :
    (∃ t, step (hostState ⟨3, hA⟩) = .next t ∧ (hostState ⟨3, hA⟩).phase = .idle ∧
      (hostState ⟨3, hA⟩).hostQueue = ⟨3, hA⟩ :: [] ∧ (3 : BitVec 3) ≠ 0) ∧
    (∃ t, step (hostState ⟨5, hA⟩) = .next t ∧ (hostState ⟨5, hA⟩).hostQueue = ⟨5, hA⟩ :: [] ∧
      (5 : BitVec 3) ≠ 0 ∧ (5 : BitVec 3) ≠ 3 ∧ (5 : BitVec 3) ≠ 4) :=
  ⟨⟨_, rfl, rfl, rfl, by decide⟩, ⟨_, rfl, rfl, by decide, by decide, by decide⟩⟩

theorem witness_HandlerCallThreadsPayload :
    (handledBy [hA] [answer true] base).replyScript = .returns (answer true) :: [] ∧ base.replyScript = [] := by decide

/-- Handlers that return: two slots, a scripted answer, free answers behind it. -/
theorem handlersReturn_witness : HandlersReturn (handledBy [hA, hA] [answer false] base) := by
  simp [HandlersReturn, handledBy]

theorem witness_WritesCallEverySlotAndAck : ∃ s : State, HandlersReturn s ∧ occupied s.slots ≠ [] :=
  ⟨_, handlersReturn_witness, by decide⟩

theorem witness_ReadsStopAtTheFirstClaim : ∃ s : State, HandlersReturn s ∧ occupied s.slots ≠ [] :=
  ⟨_, handlersReturn_witness, by decide⟩

theorem witness_ReadByteAnswersFirstClaim : ∃ s : State, HandlersReturn s ∧ occupied s.slots ≠ [] :=
  ⟨_, handlersReturn_witness, by decide⟩

theorem witness_ReadHalfAnswersFirstClaim : ∃ s : State, HandlersReturn s ∧ occupied s.slots ≠ [] :=
  ⟨_, handlersReturn_witness, by decide⟩

theorem witness_ReadLongAnswersFirstClaim : ∃ s : State, HandlersReturn s ∧ occupied s.slots ≠ [] :=
  ⟨_, handlersReturn_witness, by decide⟩

theorem witness_ReadMultibyteAnswersFirstClaim : ∃ s : State, HandlersReturn s ∧ occupied s.slots ≠ [] :=
  ⟨_, handlersReturn_witness, by decide⟩

theorem witness_HandlerThatNeverReturnsStopsTheEngine :
    let s : State := { handledBy [hA] [] base with replyScript := [.neverReturns] }
    s.replyScript = .neverReturns :: [] ∧ occupied s.slots ≠ [] := by decide

/-- The escape, a frame with no payload, one with a fixed payload, and write-multibyte frames of 0 and 2 bytes. -/
theorem witness_StepRunsTheDecodedFrame :
    (pollState .syncCk []).sync ≠ .unsync ∧
    (∀ rx, Polls (pollState .syncCk rx) pollWord [] [] rx) ∧
    decodeFrame (0xFF :: 0xFF :: []) = .ok (.resync, []) ∧ decodeFrame (0x03 :: 0xFF :: []) = .ok (.rd8 0x3FF, []) ∧
    (decodeFrame (0x10 :: 0x05 :: [0x2A]) = .ok (.wr8 5 0x2A, []) ∧ (headerOp 0x10).toNat = 4) ∧
    (decodeFrame (0x18 :: 0x00 :: [1, 2, 3, 4]) = .ok (.wr32 0 0x01020304, []) ∧ (headerOp 0x18).toNat = 6) ∧
    (decodeFrame (0x1C :: 0x00 :: [0]) = .ok (.wrmb 0 [], []) ∧ headerOp 0x1C = 7) ∧
    decodeFrame (0x1C :: 0x00 :: [2, 8, 9]) = .ok (.wrmb 0 [8, 9], []) :=
  ⟨by decide, fun rx => polls_pollState _ rx, by decide⟩

/-- V-D1, V-D2 and V-D11: at B1, at B2 and at the length byte. -/
theorem witness_HeaderOrLengthTimeoutFloods :
    (pollState .sync []).sync ≠ .unsync ∧ (∀ rx, Polls (pollState .sync rx) pollWord [] [] rx) ∧
    decodeFrame [] = .error .missingHeader ∧ decodeFrame [0xFF] = .error .missingHeader ∧
    decodeFrame [0x1C, 0x00] = .error .missingLength :=
  ⟨by decide, fun rx => polls_pollState _ rx, by decide⟩

/-- V-D12, and a write-multibyte that misses its last byte. -/
theorem witness_PayloadTimeoutFloods :
    (pollState .sync []).sync ≠ .unsync ∧ (∀ rx, Polls (pollState .sync rx) pollWord [] [] rx) ∧
    decodeFrame (0x19 :: 0x00 :: [0xDE, 0xAD]) = .error .missingPayload ∧
    decodeFrame (0x1C :: 0x00 :: [2, 8]) = .error .missingPayload :=
  ⟨by decide, fun rx => polls_pollState _ rx, by decide⟩

theorem witness_EscapeFloods :
    (pollState .syncCk [.byte 0xFF, .byte 0xFF]).sync ≠ .unsync ∧ base.sync = .unsync ∧ (0xFE : Byte) ≠ 0xFF ∧
    Polls (pollState .syncCk [.byte 0xFF, .byte 0xFF]) pollWord [] [] (.byte 0xFF :: .byte 0xFF :: []) :=
  ⟨by decide, rfl, by decide, polls_pollState _ _⟩

/-- V-D9 and V-D10: 30 and 255. -/
theorem witness_OversizeLengthFloods :
    (∀ rx, Polls (pollState .sync rx) pollWord [] [] rx) ∧ (pollState .sync []).sync ≠ .unsync ∧
    headerOp 0x1C = 7 ∧ (30 : Byte).toNat > 29 ∧ (255 : Byte).toNat > 29 :=
  ⟨fun rx => polls_pollState _ rx, by decide⟩

theorem witness_DesyncedCommandCallsNoHandler :
    ∃ t, step (handledBy [hA] [] (pollState .sync [.byte 0xFF, .byte 0xFF])) = .next t ∧
      (handledBy [hA] [] (pollState .sync [.byte 0xFF, .byte 0xFF])).phase = .idle ∧
      (pollState .sync [.byte 0xFF, .byte 0xFF]).sync ≠ .unsync ∧ t.sync = .unsync :=
  ⟨_, rfl, rfl, by decide, rfl⟩

/-- The invariant holds in a synchronized state with a registered handler, and a step from it completes. -/
theorem witness_EveryStepKeepsInv :
    ∃ s t : State, Inv s ∧ s.sync = .sync ∧ s.slots[(0 : Fin 16)] = some hA ∧ step s = .next t := by
  refine ⟨{ handledBy [hA] [answer true] (pollState .sync [.byte 0x00, .byte 0x07]) with
    trace := [.command (.register hA)] }, _, ⟨rfl, by decide, ?_, fun _ => rfl⟩, rfl, by decide, rfl⟩
  have key : ∀ i : Fin 16, (slotsOf [hA])[i] = none ∨ (slotsOf [hA])[i] = some hA := by decide
  intro i h hi
  obtain hn | hs := key i
  · rw [show (slotsOf [hA])[i] = some h from hi] at hn; cases hn
  · rw [show (slotsOf [hA])[i] = some h from hi] at hs; cases hs; decide

theorem witness_EveryStepSendsOneResponse :
    ∃ t, step (pollState .sync [.byte 0x20, .byte 0x00]) = .next t := ⟨_, rfl⟩

theorem witness_EventsPerCommandAreBounded :
    ∃ t, step (pollState .sync [.timeout]) = .next t ∧ (pollState .sync [.timeout]).phase = .idle := ⟨_, rfl, rfl⟩

theorem witness_EveryCommandEnds :
    (handledBy [hA, hA] [answer false] base).phase = .idle ∧ HandlersReturn (handledBy [hA, hA] [answer false] base) :=
  ⟨rfl, handlersReturn_witness⟩

theorem witness_WireInstructionsLeaveTableAndFlag :
    (∀ w, encode (.wr8 5 0x2A) ≠ .host w) ∧ ∃ t, exec (.wr8 5 0x2A) base = .next t :=
  ⟨fun w => by simp [encode], ⟨_, rfl⟩⟩

theorem witness_SyncAndSyncCkBehaveTheSame :
    (pollState .sync [.byte 0x00, .byte 0x07]).phase = .idle ∧ (pollState .sync [.byte 0x00, .byte 0x07]).sync ≠ .unsync ∧
    (swapSync (pollState .sync [])).sync = .syncCk := by decide

theorem witness_LeftoversAreNeverObserved :
    (pollState .sync [.byte 0x00, .byte 0x07]).phase = .idle ∧
    (withLeftovers (.u8 9) true { FrameRegs.reset with cnt := 3 } (pollState .sync [])).pb ≠ (pollState .sync []).pb := by
  decide

theorem witness_HandshakeAlwaysRecovers :
    (base.phase = .idle ∧ base.sync = .unsync) ∧ (pollState .syncCk []).sync ≠ .unsync := by decide

end Sys2Proof.Tests
end

section
/-! PROOFS. The bytes one step sends (spec/30_encoding.md R94), and the header's bit fields (R82). -/

namespace Sys2Proof.Machine

/-! ### What is sent from one state to another -/

/-- The observation of `s` is extended to that of `t` by items that send these bytes. -/
def Sends (s : State) (bytes : List Byte) (t : State) : Prop :=
  ∃ new, t.trace = s.trace ++ new ∧ sentBytes new = bytes

/-- The observation of `s` is extended to that of `t` by items that send one response of R94, or nothing. -/
def SendsOneResponse (s t : State) : Prop := ∃ new, t.trace = s.trace ++ new ∧ IsResponse (sentBytes new)

theorem isResponse_nil : IsResponse [] := .inl rfl

theorem isResponse_flood : IsResponse flood := by simp [IsResponse, flood, Config.fillCount, Config.fillByte]

theorem Sends.of_trace_eq {s t : State} (h : t.trace = s.trace) : Sends s [] t := ⟨[], by simp [h], rfl⟩

theorem Sends.trans {s t u : State} {b c : List Byte} : Sends s b t → Sends t c u → Sends s (b ++ c) u := by
  rintro ⟨new, ht, rfl⟩ ⟨new', hu, rfl⟩
  exact ⟨new ++ new', by rw [hu, ht, List.append_assoc], sentBytes_append ..⟩

theorem SendsOneResponse.of_sends {s t : State} {b : List Byte} (hb : IsResponse b) :
    Sends s b t → SendsOneResponse s t := by
  rintro ⟨new, ht, rfl⟩
  exact ⟨new, ht, hb⟩

theorem SendsOneResponse.of_trace_eq {s t : State} (h : t.trace = s.trace) : SendsOneResponse s t :=
  .of_sends isResponse_nil (.of_trace_eq h)

theorem SendsOneResponse.after_silence {s t u : State} (h : Sends s [] t) :
    SendsOneResponse t u → SendsOneResponse s u := by
  rintro ⟨new, hu, hb⟩
  exact .of_sends hb (h.trans ⟨new, hu, rfl⟩)

theorem SendsOneResponse.before_silence {s t u : State} (h : Sends t [] u) :
    SendsOneResponse s t → SendsOneResponse s u := by
  rintro ⟨new, ht, hb⟩
  exact .of_sends hb (by simpa using Sends.trans ⟨new, ht, rfl⟩ h)

/-! ### The parts of a command -/

theorem OnlyReads.sends_nothing {s t : State} {n : Nat} (h : OnlyReads s t n) : Sends s [] t := by
  obtain ⟨items, ht, hr, -⟩ := h.reads
  exact ⟨items, ht, sentBytes_of_reads hr⟩

theorem finishCommand_sends_nothing (r : CommandResult) (s : State) : Sends s [] (finishCommand r s) :=
  ⟨[.result r], rfl, rfl⟩

theorem endPoll_sends_nothing (s : State) : Sends s [] (endPoll s) := finishCommand_sends_nothing .none (s.setPhase .idle)

theorem FrameEffect.sendsOneResponse {s t : State} (h : FrameEffect s t) : SendsOneResponse s t := by
  obtain ⟨calls, bytes, ht, hc, -, hb, -⟩ := h.out
  exact .of_sends hb ⟨_, ht, by rw [sentBytes_append, sentBytes_of_calls hc, sentBytes_tx, List.nil_append]⟩

/-- Recovery sends the flood, or nothing where the engine is UNSYNC and the form not forced (R263). -/
theorem desync_sendsOneResponse (form : DesyncForm) (cause : Cause) (s : State) :
    SendsOneResponse s (desync form cause s) := by
  unfold desync
  split
  · exact .of_sends isResponse_flood ⟨flood.map .tx, rfl, sentBytes_tx flood⟩
  · exact .of_trace_eq rfl

theorem exec_frame_sendsOneResponse {i : Instr} {s t : State} (hi : IsFrameInstr i) (h : exec i s = .next t) :
    SendsOneResponse s t := by
  obtain ⟨op, addr, p, rfl⟩ | rfl := hi
  · exact (exec_frameInstr_effect h).sendsOneResponse
  · cases h
    exact desync_sendsOneResponse .triggered .protocolViolation s

/-! ### The end of a poll -/

theorem andThen_eq_next {o : Host.Outcome State Fault Refusal} {f : State → Host.Outcome State Fault Refusal}
    {u : State} (h : andThen o f = .next u) : ∃ t, o = .next t ∧ f t = .next u := by
  cases o with
  | next t => exact ⟨t, rfl, h⟩
  | fault r => cases h
  | refused r => cases h

/-- A fetch that only reads, and gives a frame's instruction if it gives one, ends in a poll that sends one response. -/
theorem completePoll_sendsOneResponse {s t : State} {f : Fetched} (hr : Sends s [] f.state)
    (hi : ∀ i u, f = .instr i u → IsFrameInstr i) (h : completePoll f = .next t) : SendsOneResponse s t := by
  refine .after_silence hr ?_
  cases f with
  | trap cause u =>
    cases h
    exact (desync_sendsOneResponse .triggered cause u).before_silence (endPoll_sends_nothing _)
  | instr i u =>
    obtain ⟨v, hv, hend⟩ := andThen_eq_next h
    cases hend
    exact (exec_frame_sendsOneResponse (hi i u rfl) hv).before_silence (endPoll_sends_nothing v)

theorem FetchCases.completePoll_sendsOneResponse {s t : State} {n : Nat} {f : Fetched} (hf : FetchCases s n f)
    (h : completePoll f = .next t) : SendsOneResponse s t :=
  Machine.completePoll_sendsOneResponse hf.reads.sends_nothing (fun i u hu => (hf.instr i u hu).1) h

/-- P_DATA from any F.LEN, also one above 29, which `fetchData_cases` leaves out. -/
theorem fetchData_sends_nothing (s : State) :
    Sends s [] (fetchData s).state ∧ ∀ i u, fetchData s = .instr i u → IsFrameInstr i := by
  unfold fetchData
  obtain ⟨hok, herr⟩ := readPayload_cases (payloadNeed s.frame - s.frame.cnt) s
  split
  case h_1 t ht => exact ⟨(hok t ht).1.sends_nothing, fun i u hu => by cases hu; exact .inl ⟨_, _, _, rfl⟩⟩
  case h_2 t ht => exact ⟨(herr t ht).1.sends_nothing, fun i u hu => by cases hu⟩

theorem completePoll_syncByte_sendsOneResponse {s t : State} (h : completePoll (fetchSyncByte s) = .next t) :
    SendsOneResponse s t := by
  obtain ⟨-, -, -, -, -, r, bytes, ht, -, hway⟩ := completePoll_syncByte_cases h
  have hb : IsResponse bytes := by
    obtain ⟨-, rfl, -⟩ | ⟨-, rfl, -⟩ | ⟨rfl, -⟩ | ⟨-, -, rfl⟩ := hway
    · exact .inr (.inl rfl)
    · exact .inr (.inl rfl)
    · exact isResponse_nil
    · exact isResponse_flood
  have hs : sentBytes (rxEvent r :: (bytes.map .tx ++ [.result .none])) = bytes := by
    calc sentBytes (rxEvent r :: (bytes.map .tx ++ [.result .none]))
        = sentBytes (bytes.map .tx ++ [.result .none]) := by cases r <;> rfl
      _ = bytes ++ [] := by rw [sentBytes_append, sentBytes_tx]; rfl
      _ = bytes := List.append_nil _
  exact .of_sends hb ⟨_, ht, hs⟩

/-- The rest of a command, from whatever phase it stands in. -/
theorem continuePoll_sendsOneResponse {s t : State} (h : continuePoll s = .next t) : SendsOneResponse s t := by
  unfold continuePoll at h
  split at h
  · cases h
    exact .of_trace_eq rfl
  · exact completePoll_syncByte_sendsOneResponse h
  · exact (fetchHdr1_cases s).1.completePoll_sendsOneResponse h
  · exact (fetchHdr2_cases s).completePoll_sendsOneResponse h
  · exact (fetchLen_cases s).completePoll_sendsOneResponse h
  · exact completePoll_sendsOneResponse (fetchData_sends_nothing s).1 (fetchData_sends_nothing s).2 h
  · cases h
  · cases h
  · cases h

/-! ### Host commands -/

theorem replaceFirst_sends_nothing (old new : Option HandlerId) (s : State) : Sends s [] (replaceFirst old new s) := by
  obtain ⟨i, -, h⟩ | h := replaceFirst_cases old new s
  · rw [h]; exact ⟨_, rfl, rfl⟩
  · rw [h]; exact ⟨_, rfl, rfl⟩

theorem askPending_sends_nothing (s : State) : Sends s [] (askPending s) := by
  obtain ⟨b, d, h⟩ := rxPending_cases s
  simp only [askPending, h]
  exact ⟨[.pend b, .result (.pending b)], by simp [finishCommand], rfl⟩

theorem exec_poll_sends_nothing {s t : State} (h : exec .poll s = .next t) : Sends s [] t := by
  obtain ⟨b, u, hu, -, -, -, -, -, -, -, -, -, hend⟩ := exec_poll_cases s
  cases hu.symm.trans h
  obtain ⟨-, ht, -⟩ | ⟨-, ht, -⟩ := hend
  · exact ⟨_, ht, rfl⟩
  · exact ⟨_, ht, rfl⟩

theorem resetEngine_sendsOneResponse (s : State) : SendsOneResponse s (resetEngine s) :=
  .before_silence (finishCommand_sends_nothing .none _)
    (desync_sendsOneResponse .forced .reset { s with slots := Vector.replicate 16 none, pb := .none, tmo := false })

/-- exec of a host command sends nothing, except RESET, which leaves the engine in P_IDLE. -/
theorem exec_decodeHost_sends {w : HostWord} {s t : State} (h : exec (decodeHost w) s = .next t) :
    Sends s [] t ∨ t.phase = .idle ∧ SendsOneResponse s t := by
  unfold decodeHost at h
  split at h
  · cases h; exact .inr ⟨rfl, resetEngine_sendsOneResponse s⟩
  · exact .inl (exec_poll_sends_nothing h)
  · cases h; exact .inl (askPending_sends_nothing s)
  · cases h; exact .inl (replaceFirst_sends_nothing _ _ s)
  · cases h; exact .inl (replaceFirst_sends_nothing _ _ s)
  · cases h; exact .inl (finishCommand_sends_nothing _ s)
  · cases h; exact .inl (finishCommand_sends_nothing _ s)

theorem nextCommand_trace {s s1 : State} {w : HostWord} (h : nextCommand s = some (w, s1)) : s1.trace = s.trace := by
  unfold nextCommand at h
  split at h
  · cases h; rfl
  · split at h
    · cases h; rfl
    · cases h

theorem issueCommand_sends_nothing (w : HostWord) (s : State) : Sends s [] (issueCommand w s) :=
  ⟨[.command (decodeHost w)], rfl, rfl⟩

theorem runCommand_sendsOneResponse {s t : State} (h : runCommand s = .next t) : SendsOneResponse s t := by
  unfold runCommand at h
  split at h
  case h_1 w s1 hw =>
    obtain ⟨u, hu, hrest⟩ := andThen_eq_next h
    have hissue : Sends s [] (issueCommand w s1) :=
      (Sends.of_trace_eq (nextCommand_trace hw)).trans (issueCommand_sends_nothing w s1)
    refine .after_silence hissue ?_
    obtain hsilent | ⟨hidle, hresponse⟩ := exec_decodeHost_sends hu
    · exact .after_silence hsilent (continuePoll_sendsOneResponse hrest)
    · have : u = t := by simpa [continuePoll, hidle] using hrest
      exact this ▸ hresponse
  case h_2 =>
    cases h
    exact .of_trace_eq rfl

/-- Settles O50: the only part of a step that sends is RESET, a frame's instruction, a handshake or recovery, and a step
performs at most one of them. -/
theorem everyStepSendsOneResponse : Obligations.EveryStepSendsOneResponse := by
  intro s t h
  unfold step at h
  split at h
  · exact runCommand_sendsOneResponse h
  · exact continuePoll_sendsOneResponse h

end Sys2Proof.Machine

namespace Sys2Proof

/-! ### Header fields -/

/-- addr is H[9:0]: below bit 8 it is B2, above it B1. -/
theorem headerAddr_eq_field (b1 b2 : Byte) : headerAddr b1 b2 = (b1 ++ b2).extractLsb' 0 10 := by
  ext i hi
  rw [headerAddr_getElem, BitVec.getElem_extractLsb', BitVec.getLsbD_append, Nat.zero_add]

/-- Settles O2: the two definitions are the shift and mask of R82; the fields of H follow bit by bit. -/
theorem headerFieldsAreShiftAndMask : Obligations.HeaderFieldsAreShiftAndMask := by
  intro b1 b2
  have hop : (b1 ++ b2).extractLsb' 10 6 = b1.extractLsb' 2 6 := BitVec.extractLsb'_append_eq_of_le (by decide)
  have hhigh : (headerAddr b1 b2).extractLsb' 8 2 = b1.extractLsb' 0 2 := by
    ext i hi
    rw [BitVec.getElem_extractLsb', BitVec.getElem_extractLsb', BitVec.getLsbD_eq_getElem (by omega), headerAddr_getElem]
    simp
  have hlow : (headerAddr b1 b2).extractLsb' 0 8 = b2 := by
    ext i hi
    rw [BitVec.getElem_extractLsb', BitVec.getLsbD_eq_getElem (by omega), headerAddr_getElem]
    simp [hi, BitVec.getLsbD_eq_getElem]
  exact ⟨rfl, headerOp_eq_field b1, (headerOp_eq_field b1).trans hop.symm, rfl, hhigh, hlow, headerAddr_eq_field b1 b2⟩

end Sys2Proof
end

section
/-! PROOFS. The sync-byte instructions SYNCREQ and DISCARD (spec/40_sync.md R112, R114) and PENDING (R116). -/

namespace Sys2Proof

/-! ### What the bytes decode to -/

theorem decodeSyncByte_syncReq : decodeSyncByte 0xAA = .syncreq := rfl

theorem decodeSyncByte_of_ne {b : Byte} (hAA : b ≠ 0xAA) (hA5 : b ≠ 0xA5) : decodeSyncByte b = .discard b :=
  (if_neg hAA).trans (if_neg hA5)

/-- A reserved header other than the escape's op is a whole frame (R86). -/
theorem decodeFrame_of_reservedOp {b1 : Byte} (h8 : 8 ≤ (headerOp b1).toNat) (h63 : headerOp b1 ≠ 63) (b2 : Byte)
    (rest : List Byte) :
    decodeFrame (b1 :: b2 :: rest) = .ok (frameInstr (headerOp b1) (headerAddr b1 b2) [], rest) := by
  have h7 : headerOp b1 ≠ 7 := fun h => by simp [h] at h8
  have hframe := decodeFrame_headerBytes (addr := headerAddr b1 b2) (fun h => h63 h.1) h7 rest
  rw [headerBytes_of_fields, fixedPayload_eq_zero (.inl h8)] at hframe
  exact hframe

end Sys2Proof

namespace Sys2Proof.Machine

/-! ### The ends of a command -/

theorem finishCommand_eq (c : CommandResult) (s : State) :
    finishCommand c s = { s with trace := s.trace ++ [.result c] } := rfl

theorem endPoll_eq (s : State) : endPoll s = { s with phase := .idle, trace := s.trace ++ [.result .none] } := rfl

/-! ### The sync-byte instructions -/

theorem exec_syncreq (s : State) :
    exec .syncreq s = .next { s with sync := .sync, trace := s.trace ++ [.tx 0x55] } := rfl

theorem exec_discard (b : Byte) (s : State) : exec (.discard b) s = .next s := rfl

/-- A POLL that reads a byte while UNSYNC runs what the byte decodes to, with S.TMO 0, and ends (R111). -/
theorem step_of_unsync_byte {s : State} {w : HostWord} {q : List HostWord} {p : List Bool} {b : Byte}
    {r : List RxAnswer} (h : Polls s w q p (.byte b :: r)) (hs : s.sync = .unsync) :
    step s = andThen
      (exec (decodeSyncByte b) { polled s q p r [.rx b] with tmo := false, phase := .syncByte })
      (fun t => .next (endPoll t)) := by
  rw [step_of_polls h, if_pos hs]
  simp [continuePoll, fetchSyncByte, rxRead, polled, completePoll, tmoOf, rxEvent]

/-- Settles O13: the step is exec of SYNCREQ and the poll's end; the header byte 0xAA has op 42. -/
theorem syncReqEntersSync : Obligations.SyncReqEntersSync := by
  refine ⟨exec_syncreq, fun s w q p r h hs => ?_, decodeFrame_of_reservedOp (b1 := 0xAA) (by decide) (by decide)⟩
  rw [step_of_unsync_byte h hs, decodeSyncByte_syncReq, exec_syncreq]
  simp [andThen, endPoll_eq, polled, h.idle]

/-- Settles O15: the step is exec of DISCARD, which is no change, and the poll's end. -/
theorem otherBytesAreDiscardedWhenUnsync : Obligations.OtherBytesAreDiscardedWhenUnsync := by
  refine ⟨exec_discard, fun s w q p b r h hs hAA hA5 => ?_⟩
  rw [step_of_unsync_byte h hs, decodeSyncByte_of_ne hAA hA5, exec_discard]
  simp [andThen, endPoll_eq, polled, h.idle]

/-! ### PENDING -/

theorem rxPending_free {s : State} (h : s.pendScript = []) :
    rxPending s = (Config.freePending s.draws, { s with
      draws := s.draws + 1, trace := s.trace ++ [.pend (Config.freePending s.draws)] }) := by
  simp [rxPending, h]

/-- PENDING returns the answer to its one RxPending. -/
theorem exec_pending_of_rxPending {s t : State} {b : Bool} (h : rxPending s = (b, t)) :
    exec .pending s = .next (finishCommand (.pending b) t) := by
  simp only [exec, execPending, askPending, h]

/-- Settles O23: a scripted and a free answer are the two cases of RxPending. -/
theorem pendingReturnsRxPending : Obligations.PendingReturnsRxPending := by
  refine ⟨fun _ => rfl, fun s b p h => ?_, fun s h => ⟨Config.freePending s.draws, ?_⟩⟩
  · rw [exec_pending_of_rxPending (rxPending_scripted h)]
    simp [finishCommand_eq]
  · rw [exec_pending_of_rxPending (rxPending_free h)]
    simp [finishCommand_eq]

end Sys2Proof.Machine
end

section
/-! PROOFS. The two ways a synchronized poll floods after its header: a timeout at a payload byte
(spec/41_frame_decoder.md R154) and the escape (R143). -/

namespace Sys2Proof

/-! ### What the bytes decode to -/

/-- `decodeFrame_headerBytes` for a header given by its two bytes. -/
theorem decodeFrame_of_fixedOp {b1 b2 : Byte} (he : isEscape b1 b2 = false) (h7 : headerOp b1 ≠ 7)
    (tail : List Byte) :
    decodeFrame (b1 :: b2 :: tail) =
      takePayload (headerOp b1) (headerAddr b1 b2) (fixedPayload (headerOp b1)) tail := by
  simp only [decodeFrame, he, if_neg h7, Bool.false_eq_true, if_false]

/-- A header without its whole payload: a write-multibyte with a legal length byte, or a frame of fixed length. -/
theorem decodeFrame_missingPayload_cases {b1 b2 : Byte} {tail : List Byte}
    (h : decodeFrame (b1 :: b2 :: tail) = .error .missingPayload) :
    (headerOp b1 = 7 ∧ ∃ n data, tail = n :: data ∧ n.toNat ≤ 29 ∧ data.length < n.toNat) ∨
    (headerOp b1 ≠ 7 ∧ isEscape b1 b2 = false ∧ tail.length < fixedPayload (headerOp b1)) := by
  simp only [decodeFrame, takePayload] at h
  split at h
  · cases h
  next he =>
    split at h
    next h7 =>
      split at h
      · cases h
      next n data =>
        split at h
        · cases h
        next hn =>
          split at h
          next hl => exact .inl ⟨h7, n, data, rfl, Nat.not_lt.mp hn, hl⟩
          · cases h
    next h7 =>
      split at h
      next hl => exact .inr ⟨h7, Bool.eq_false_iff.mpr he, hl⟩
      · cases h

theorem decodeFrame_eq_resync_iff (b1 b2 : Byte) (rest : List Byte) :
    decodeFrame (b1 :: b2 :: rest) = .ok (.resync, rest) ↔ b1 = 0xFF ∧ b2 = 0xFF := by
  constructor
  · intro h
    obtain ⟨c1, c2, hbytes, h1, h2, -⟩ | ⟨_, _, _, -, -, -, -, hi⟩ | ⟨_, _, _, _, -, -, -, -, hi⟩ :=
      decodeFrame_cases h
    · cases hbytes
      exact ⟨h1, h2⟩
    · exact (frameInstr_ne_resync _ _ _ hi.symm).elim
    · cases hi
  · rintro ⟨rfl, rfl⟩
    rfl

/-- The first byte of the escape with another second byte is the reserved op 63. -/
theorem decodeFrame_of_op63 {b2 : Byte} (h : b2 ≠ 0xFF) (rest : List Byte) :
    decodeFrame (0xFF :: b2 :: rest) = .ok (.rsvd32to63 31 (0x300 ||| b2.setWidth 10), rest) := by
  have he : isEscape 0xFF b2 = false := Bool.eq_false_iff.mpr fun he => h ((isEscape_iff ..).mp he).2
  rw [decodeFrame_of_fixedOp he (by decide)]
  rfl

end Sys2Proof

namespace Sys2Proof.Machine

/-! ### The header of a synchronized poll -/

/-- A synchronized POLL that reads its two header bytes goes on with the escape or with the accepted header
(R140 to R143). `headerRead` says what is left to read. -/
theorem step_of_synced_header {s : State} {w : HostWord} {q : List HostWord} {p : List Bool} {b1 b2 : Byte}
    {r : List RxAnswer} (h : Polls s w q p (.byte b1 :: .byte b2 :: r)) (hs : s.sync ≠ .unsync) :
    step s = completePoll (if isEscape b1 b2 then .instr .resync (headerRead (polled s q p [] []) b1 b2 r)
      else acceptHeader (headerRead (polled s q p [] []) b1 b2 r)) := by
  rw [step_of_polls h, if_neg hs]
  simp only [continuePoll]
  rw [fetchHdr1_of_bytes (b1 := b1) (b2 := b2) (r := r) rfl]
  rfl

/-- The state after an accepted op 7 header and its length byte. -/
def lengthAccepted (s : State) (b1 b2 n : Byte) (r : List RxAnswer) : State :=
  { headerAccepted s b1 b2 r with
    phase := .len,
    frame := { s.frame with b1 := b1, b2 := b2, op := headerOp b1, addr := headerAddr b1 b2, len := n },
    trace := s.trace ++ [.rx b1, .rx b2, .rx n] }

/-- An op 7 header with a legal length byte goes on with as many payload bytes (R148, R149). -/
theorem acceptHeader_of_legalLength (s : State) {b1 n : Byte} (b2 : Byte) (r : List RxAnswer) (h7 : headerOp b1 = 7)
    (hn : n.toNat ≤ 29) :
    acceptHeader (headerRead s b1 b2 (.byte n :: r)) = startPayload (lengthAccepted s b1 b2 n r) := by
  rw [acceptHeader_headerRead, if_pos h7, fetchLen, rxRead_scripted (r := .byte n) (q := r) rfl]
  simp only [if_neg (Nat.not_lt.mpr hn)]
  simp [lengthAccepted, headerAccepted, headerRead, State.setFrame, State.setPhase, tmoOf, rxEvent]

/-- A header of another op goes on with its fixed payload, if it has one (R146). -/
theorem acceptHeader_of_fixedPayload (s : State) {b1 : Byte} (b2 : Byte) (r : List RxAnswer) (h7 : headerOp b1 ≠ 7)
    (h0 : fixedPayload (headerOp b1) ≠ 0) :
    acceptHeader (headerRead s b1 b2 r) = startPayload (headerAccepted s b1 b2 r) := by
  rw [acceptHeader_headerRead, if_neg h7, if_neg h0]

/-! ### A timeout at a payload byte -/

/-- A synchronized poll whose payload bytes end in a timeout: recovery at once, with S.PB as it was, and the bytes
received so far in F.RAW (R154). -/
theorem completePoll_startPayload_of_timeout {s : State} {bytes : List Byte} {r : List RxAnswer}
    (hr : s.rxScript = bytes.map .byte ++ .timeout :: r) (hlt : bytes.length < payloadNeed s.frame)
    (hmax : payloadNeed s.frame ≤ 29) (hs : s.sync ≠ .unsync) :
    ∃ f : FrameRegs, f.raw.toList.take f.cnt = bytes ∧ f.cnt = bytes.length ∧
      completePoll (startPayload s) = .next { s with
        phase := .idle, sync := .unsync, tmo := true, rxScript := r, frame := f,
        trace := s.trace ++ (bytes.map .rx ++ .rxTimeout :: (floodEvents ++ [.result .none])) } := by
  refine ⟨{ s.frame with raw := memWrite s.frame.raw 0 bytes, cnt := bytes.length },
    take_memWrite _ _ (by omega), rfl, ?_⟩
  rw [startPayload_of_timeout s bytes r hr hlt, completePoll_trap_synced (by exact hs)]
  simp

/-- Settles O44: the header, and for op 7 the length byte, are read; what is left is a payload that times out. -/
theorem payloadTimeoutFloods : Obligations.PayloadTimeoutFloods := by
  intro s w q p b1 b2 tail r h hs hdec
  rw [step_of_synced_header (r := tail.map .byte ++ .timeout :: r) h hs]
  obtain ⟨h7, n, data, rfl, hn, hl⟩ | ⟨h7, he, hl⟩ := decodeFrame_missingPayload_cases hdec
  · rw [if_pos h7]
    have hneed := payloadNeed_of_eq (f := (lengthAccepted (polled s q p [] []) b1 b2 n []).frame) h7
    obtain ⟨f, hraw, hcnt, hend⟩ := completePoll_startPayload_of_timeout (bytes := data)
      (s := lengthAccepted (polled s q p [] []) b1 b2 n (data.map .byte ++ .timeout :: r)) rfl
      (hl.trans_eq hneed.symm) (hneed.trans_le hn) hs
    refine ⟨f, hraw, hcnt, ?_⟩
    rw [not_isEscape_of_op (by simp [h7]), if_neg Bool.false_ne_true, List.map_cons, List.cons_append,
      acceptHeader_of_legalLength _ _ _ h7 hn, hend]
    simp [lengthAccepted, headerAccepted, headerRead, polled, h.idle]
  · rw [if_neg h7]
    have hneed := payloadNeed_of_ne (f := (headerAccepted (polled s q p [] []) b1 b2 []).frame) h7
    obtain ⟨f, hraw, hcnt, hend⟩ := completePoll_startPayload_of_timeout (bytes := tail)
      (s := headerAccepted (polled s q p [] []) b1 b2 (tail.map .byte ++ .timeout :: r)) rfl
      (hl.trans_eq hneed.symm) (hneed.trans_le ((fixedPayload_le _).trans (by decide))) hs
    refine ⟨f, hraw, hcnt, ?_⟩
    rw [he, if_neg Bool.false_ne_true, acceptHeader_of_fixedPayload _ _ _ h7 (Nat.ne_zero_of_lt hl), hend]
    simp [headerAccepted, headerRead, polled, h.idle]

/-! ### The escape -/

theorem exec_resync_of_synced {s : State} (h : s.sync ≠ .unsync) : exec .resync s =
    .next { s with phase := .flush, sync := .unsync, trace := s.trace ++ floodEvents } :=
  congrArg Host.Outcome.next (desync_synced (.inr h))

theorem exec_resync_of_unsync {s : State} (h : s.sync = .unsync) : exec .resync s = .next s :=
  congrArg Host.Outcome.next (desync_unsynced h)

/-- A synchronized POLL that reads the escape is its header, recovery, and the poll's end. -/
theorem step_of_escape {s : State} {w : HostWord} {q : List HostWord} {p : List Bool} {r : List RxAnswer}
    (h : Polls s w q p (.byte 0xFF :: .byte 0xFF :: r)) (hs : s.sync ≠ .unsync) :
    step s = .next { polled s q p r (.rx 0xFF :: .rx 0xFF :: (floodEvents ++ [.result .none])) with
      sync := .unsync, tmo := false, frame := { s.frame with b1 := 0xFF, b2 := 0xFF } } := by
  rw [step_of_synced_header h hs, if_pos (by decide), completePoll, exec_resync_of_synced (by exact hs)]
  simp [andThen, endPoll_eq, headerRead, polled, h.idle]

/-- Settles O45: the escape is the pair 0xFF 0xFF alone, and its instruction is recovery. -/
theorem escapeFloods : Obligations.EscapeFloods :=
  ⟨fun _ => exec_resync_of_synced, fun _ => exec_resync_of_unsync, fun _ _ _ _ _ => step_of_escape,
    decodeFrame_eq_resync_iff, fun _ rest h => decodeFrame_of_op63 h rest⟩

end Sys2Proof.Machine
end

section
/-! PROOFS. The handler call (spec/42_callback_registry.md R183) and the two dispatch modes of the register operations
(R184, R185), with the responses that every write and every unclaimed read end in (spec/44_response_encoder.md R231, R237). -/

namespace Sys2Proof.Machine

/-! ### One handler call -/

theorem nextReply_scripted {s : State} {r : HandlerReply} {q : List HandlerReply} (h : s.replyScript = r :: q) :
    nextReply s = (r, { s with replyScript := q }) := by
  simp [nextReply, h]

theorem nextReply_free {s : State} (h : s.replyScript = []) :
    nextReply s = (.returns (Config.freeAnswer s.draws), { s with draws := s.draws + 1 }) := by
  simp [nextReply, h]

/-- A call is the drawing of its answer, the write of S.PB and one Call event. -/
theorem hCall_of_nextReply {s t : State} {a : HandlerAnswer} (h : nextReply s = (.returns a, t)) (i : Fin 16)
    (hd : HandlerId) (op : OpCode) (addr : RegAddr) :
    hCall i hd op addr s = some (a.claimed, { t with
      pb := answerPayload a s.pb.kind,
      trace := t.trace ++ [.call i hd op addr s.pb a.claimed (answerPayload a s.pb.kind)] }) := by
  simp only [hCall, h]
  rfl

/-- Settles O31: a scripted and a free answer are the two ways HANDLER's next reply is drawn. -/
theorem handlerCallThreadsPayload : Obligations.HandlerCallThreadsPayload :=
  ⟨fun _ _ _ i h op addr hs => hCall_of_nextReply (nextReply_scripted hs) i h op addr,
    fun _ i h op addr hs => ⟨_, hCall_of_nextReply (nextReply_free hs) i h op addr⟩⟩

/-! ### Writes -/

/-- An instruction whose meaning is `writeOp` completes when its handlers return. -/
theorem writeCompletes_of_exec_eq_writeOp {i : Instr} {op : OpCode} {addr : RegAddr} {pl : Payload} {s : State}
    (hr : HandlersReturn s) (he : exec i s = writeOp op addr pl s) : WriteCompletes i op addr pl s := by
  obtain ⟨t, ht⟩ := writeOp_completes (op := op) (addr := addr) (pl := pl) hr
  obtain hf | ⟨as, d, hlen, has, hw⟩ := writeOp_cases op addr pl s
  · simp [hf] at ht
  · exact ⟨as, d, hlen, has, he.trans hw⟩

/-- Settles O33: each of the four writes is `writeOp` of its op and its operand. -/
theorem writesCallEverySlotAndAck : Obligations.WritesCallEverySlotAndAck := fun _ hr _ =>
  ⟨fun _ => writeCompletes_of_exec_eq_writeOp hr rfl, fun _ => writeCompletes_of_exec_eq_writeOp hr rfl,
    fun _ => writeCompletes_of_exec_eq_writeOp hr rfl, fun _ => writeCompletes_of_exec_eq_writeOp hr rfl⟩

/-! ### Reads -/

/-- An instruction whose meaning is `readOp` completes when its handlers return, with any response that `readResponse`
meets for every payload of the op's kind. -/
theorem readCompletes_of_exec_eq_readOp {i : Instr} {op : OpCode} {addr : RegAddr} {s : State}
    {resp : Bool → Payload → List Byte → Prop} (hr : HandlersReturn s) (he : exec i s = readOp op addr s)
    (hresp : ∀ c pl, pl.kind = kindOf op → resp c pl (readResponse c pl)) :
    ReadCompletes i op addr (cleared (kindOf op)) resp s := by
  obtain ⟨t, ht⟩ := readOp_completes (op := op) (addr := addr) hr
  obtain hf | ⟨as, d, hstop, has, hw⟩ := readOp_cases op addr s
  · simp [hf] at ht
  · exact ⟨as, d, _, hstop, has, hresp _ _ (by simp), he.trans hw⟩

theorem readResponse_unclaimed (pl : Payload) : readResponse false pl = [0x0F] := rfl

/-- Settles O34: each of the four reads is `readOp` of its op, and an unclaimed response is NAK. -/
theorem readsStopAtTheFirstClaim : Obligations.ReadsStopAtTheFirstClaim := by
  intro s hr addr resp
  have hresp : ∀ c pl, resp c pl (readResponse c pl) := by
    rintro _ pl rfl
    exact readResponse_unclaimed pl
  exact ⟨readCompletes_of_exec_eq_readOp hr rfl fun c pl _ => hresp c pl,
    readCompletes_of_exec_eq_readOp hr rfl fun c pl _ => hresp c pl,
    readCompletes_of_exec_eq_readOp hr rfl fun c pl _ => hresp c pl,
    readCompletes_of_exec_eq_readOp hr rfl fun c pl _ => hresp c pl⟩

end Sys2Proof.Machine
end

section
/-! PROOFS. The responses of the fixed reads (spec/44_response_encoder.md R232 to R234). -/

namespace Sys2Proof.Machine

/-! ### The response to a payload of each fixed kind -/

theorem readResponse_u8 (c : Bool) (v : Byte) : readResponse c (.u8 v) = if c then [0x06, v] else [0x0F] := rfl

theorem readResponse_u16 (c : Bool) (v : Half) :
    readResponse c (.u16 v) = if c then [0x06, v.extractLsb' 8 8, v.extractLsb' 0 8] else [0x0F] := rfl

theorem readResponse_u32 (c : Bool) (v : Long) :
    readResponse c (.u32 v) =
      if c then [0x06, v.extractLsb' 24 8, v.extractLsb' 16 8, v.extractLsb' 8 8, v.extractLsb' 0 8] else [0x0F] := rfl

/-! ### The three fixed reads -/

/-- Settles O35: RD8 is `readOp` of op 0, whose payload stays of kind U8 through the calls. -/
theorem readByteAnswersFirstClaim : Obligations.ReadByteAnswersFirstClaim := fun _ hr _ =>
  readCompletes_of_exec_eq_readOp hr rfl fun
    | c, .u8 v, _ => ⟨v, rfl, readResponse_u8 c v⟩

/-- Settles O36: RD16 is `readOp` of op 1, whose payload stays of kind U16 through the calls. -/
theorem readHalfAnswersFirstClaim : Obligations.ReadHalfAnswersFirstClaim := fun _ hr _ =>
  readCompletes_of_exec_eq_readOp hr rfl fun
    | c, .u16 v, _ => ⟨v, rfl, readResponse_u16 c v⟩

/-- Settles O37: RD32 is `readOp` of op 2, whose payload stays of kind U32 through the calls. -/
theorem readLongAnswersFirstClaim : Obligations.ReadLongAnswersFirstClaim := fun _ hr _ =>
  readCompletes_of_exec_eq_readOp hr rfl fun
    | c, .u32 v, _ => ⟨v, rfl, readResponse_u32 c v⟩

end Sys2Proof.Machine
end

section
/-! PROOFS. Desync recovery (spec/45_desync_recovery.md R263). -/

namespace Sys2Proof.Machine

/-- Recovery that is not forced, from UNSYNC, writes only S.SYNC. -/
theorem desync_of_not_floods {form : DesyncForm} {cause : Cause} {s : State}
    (h : ¬ (form = .forced ∨ s.sync ≠ .unsync)) : desync form cause s = { s with sync := .unsync } :=
  if_neg h

/-- Settles O42: the flood where the form is forced or the engine synchronized, else the write of S.SYNC alone. -/
theorem desyncRecoveryFloods : Obligations.DesyncRecoveryFloods := by
  intro form cause s
  by_cases h : form = .forced ∨ s.sync ≠ .unsync
  · rw [if_pos h]
    exact desync_synced h
  · rw [if_neg h]
    exact desync_of_not_floods h

end Sys2Proof.Machine
end

section
/-! PROOFS. The encodings (spec/30_encoding.md): encoding and decoding undo each other, the decoders follow the opcode table,
the length of a frame, and the order of payload bytes. -/

namespace Sys2Proof

/-! ### The ops -/

/-- Every op is one of the eight register operations' or lies in one of the three reserved ranges (R88). -/
theorem op_cases (op : OpCode) :
    op = 0 ∨ op = 1 ∨ op = 2 ∨ op = 3 ∨ op = 4 ∨ op = 5 ∨ op = 6 ∨ op = 7 ∨
    (∃ o : BitVec 3, op = 8 ||| o.setWidth 6) ∨ (∃ o : BitVec 4, op = 16 ||| o.setWidth 6) ∨
    (∃ o : BitVec 5, op = 32 ||| o.setWidth 6) := by
  revert op; decide

theorem rsvd8to15_op (o : BitVec 3) :
    8 ≤ (8 ||| o.setWidth 6 : OpCode).toNat ∧ (8 ||| o.setWidth 6 : OpCode).toNat < 16 ∧
      (8 ||| o.setWidth 6 : OpCode).extractLsb' 0 3 = o := by
  revert o; decide

theorem rsvd16to31_op (o : BitVec 4) :
    16 ≤ (16 ||| o.setWidth 6 : OpCode).toNat ∧ (16 ||| o.setWidth 6 : OpCode).toNat < 32 ∧
      (16 ||| o.setWidth 6 : OpCode).extractLsb' 0 4 = o := by
  revert o; decide

theorem rsvd32to63_op (o : BitVec 5) :
    32 ≤ (32 ||| o.setWidth 6 : OpCode).toNat ∧ (32 ||| o.setWidth 6 : OpCode).extractLsb' 0 5 = o ∧
      ((32 ||| o.setWidth 6 : OpCode) = 63 ↔ o = 31) := by
  revert o; decide

/-- Above op 7 the instruction is the reserved one of the op's range. -/
theorem frameInstr_of_reservedOp {op : OpCode} (h : 8 ≤ op.toNat) (addr : RegAddr) (p : List Byte) :
    frameInstr op addr p =
      if op.toNat < 16 then .rsvd8to15 (op.extractLsb' 0 3) addr
      else if op.toNat < 32 then .rsvd16to31 (op.extractLsb' 0 4) addr
      else .rsvd32to63 (op.extractLsb' 0 5) addr := by
  unfold frameInstr
  split
  case h_9 => rfl
  all_goals omega

theorem frameInstr_rsvd8to15 (o : BitVec 3) (addr : RegAddr) (p : List Byte) :
    frameInstr (8 ||| o.setWidth 6) addr p = .rsvd8to15 o addr := by
  obtain ⟨hlo, hhi, ho⟩ := rsvd8to15_op o
  rw [frameInstr_of_reservedOp hlo, if_pos hhi, ho]

theorem frameInstr_rsvd16to31 (o : BitVec 4) (addr : RegAddr) (p : List Byte) :
    frameInstr (16 ||| o.setWidth 6) addr p = .rsvd16to31 o addr := by
  obtain ⟨hlo, hhi, ho⟩ := rsvd16to31_op o
  rw [frameInstr_of_reservedOp (by omega), if_neg (by omega), if_pos hhi, ho]

theorem frameInstr_rsvd32to63 (o : BitVec 5) (addr : RegAddr) (p : List Byte) :
    frameInstr (32 ||| o.setWidth 6) addr p = .rsvd32to63 o addr := by
  obtain ⟨hlo, ho, -⟩ := rsvd32to63_op o
  rw [frameInstr_of_reservedOp (by omega), if_neg (by omega), if_neg (by omega), ho]

/-! ### Encoding, then decoding -/

/-- A frame of fixed length, followed by any bytes. -/
theorem decodeFrame_fixed {op : OpCode} {addr : RegAddr} {p : List Byte} (he : ¬ (op = 63 ∧ addr = 0x3FF))
    (h7 : op ≠ 7) (hp : p.length = fixedPayload op) (rest : List Byte) :
    decodeFrame (headerBytes op addr ++ p ++ rest) = .ok (frameInstr op addr p, rest) := by
  rw [List.append_assoc, decodeFrame_headerBytes he h7, ← hp]
  simp [takePayload]

/-- A frame of a reserved op, followed by any bytes. -/
theorem decodeFrame_reserved {op : OpCode} {addr : RegAddr} (he : ¬ (op = 63 ∧ addr = 0x3FF)) (h8 : 8 ≤ op.toNat)
    (rest : List Byte) : decodeFrame (headerBytes op addr ++ rest) = .ok (frameInstr op addr [], rest) := by
  have h7 : op ≠ 7 := by rintro rfl; simp at h8
  simpa using decodeFrame_fixed he h7 (p := []) (fixedPayload_eq_zero (.inl h8)).symm rest

/-- A write-multibyte of at most 29 bytes, followed by any bytes. -/
theorem decodeFrame_wrmb {data : List Byte} (h : data.length ≤ 29) (addr : RegAddr) (rest : List Byte) :
    decodeFrame (headerBytes 7 addr ++ BitVec.ofNat 8 data.length :: data ++ rest) = .ok (.wrmb addr data, rest) := by
  have hn : (BitVec.ofNat 8 data.length).toNat = data.length := by simp; omega
  have he := not_isEscape_of_op (b1 := ((7 : OpCode).setWidth 8 <<< 2) ||| (addr >>> 8).setWidth 8)
    (b2 := addr.setWidth 8) (by rw [headerOp_headerBytes]; decide)
  simp only [headerBytes, List.cons_append, List.nil_append, decodeFrame, he, headerOp_headerBytes,
    headerAddr_headerBytes, hn, Bool.false_eq_true, if_false, if_true, if_neg (Nat.not_lt.mpr h)]
  simp [takePayload, frameInstr]

/-- Settles O4: sync bytes and host words by their few bits, frames by their form: fixed length, write-multibyte, reserved,
or the escape. -/
theorem encodedInstructionDecodesToItself : Obligations.EncodedInstructionDecodesToItself := by
  intro i rest hwf
  cases i with
  | syncreq => rfl
  | syncckreq => rfl
  | discard b =>
    simp only [Instr.wellFormed, Bool.and_eq_true, bne_iff_ne] at hwf
    simp [encode, Encoded.followedBy, decode, decodeSyncByte, hwf]
  | rd8 addr => exact decodeFrame_fixed (p := []) (by simp) (by decide) rfl rest
  | rd16 addr => exact decodeFrame_fixed (p := []) (by simp) (by decide) rfl rest
  | rd32 addr => exact decodeFrame_fixed (p := []) (by simp) (by decide) rfl rest
  | rdmb addr => exact decodeFrame_fixed (p := []) (by simp) (by decide) rfl rest
  | wr8 addr v => exact decodeFrame_fixed (p := [v]) (by simp) (by decide) rfl rest
  | wr16 addr v =>
    have hv := halfOfBytes_bytesOfHalf v []
    rw [List.append_nil] at hv
    refine (decodeFrame_fixed (p := bytesOfHalf v) (by simp) (by decide) rfl rest).trans ?_
    simp [frameInstr, hv, encode]
  | wr32 addr v =>
    have hv := longOfBytes_bytesOfLong v []
    rw [List.append_nil] at hv
    refine (decodeFrame_fixed (p := bytesOfLong v) (by simp) (by decide) rfl rest).trans ?_
    simp [frameInstr, hv, encode]
  | wrmb addr data => exact decodeFrame_wrmb (of_decide_eq_true hwf) addr rest
  | rsvd8to15 o addr =>
    obtain ⟨hlo, hhi, -⟩ := rsvd8to15_op o
    refine (decodeFrame_reserved (fun h => absurd hhi (by rw [h.1]; decide)) hlo rest).trans ?_
    rw [frameInstr_rsvd8to15]; rfl
  | rsvd16to31 o addr =>
    obtain ⟨hlo, hhi, -⟩ := rsvd16to31_op o
    refine (decodeFrame_reserved (fun h => absurd hhi (by rw [h.1]; decide)) (by omega) rest).trans ?_
    rw [frameInstr_rsvd16to31]; rfl
  | rsvd32to63 o addr =>
    obtain ⟨hlo, -, h63⟩ := rsvd32to63_op o
    refine (decodeFrame_reserved (fun h => ?_) (by omega) rest).trans ?_
    · simp [Instr.wellFormed, h63.mp h.1, h.2] at hwf
    · rw [frameInstr_rsvd32to63]; rfl
  | resync => rfl
  | reset => rfl
  | poll => rfl
  | pending => rfl
  | register h => rfl
  | unregister h => rfl
  | hostIllegal5 => rfl
  | hostIllegal6to7 c =>
    obtain rfl | rfl : c = 0 ∨ c = 1 := by revert c; decide
    · rfl
    · rfl

/-! ### Decoding, then encoding -/

theorem bytesOfHalf_halfOfBytes (p0 p1 : Byte) : bytesOfHalf (halfOfBytes [p0, p1]) = [p0, p1] := by
  simp only [bytesOfHalf, halfOfBytes, payloadByte, List.getD_cons_zero, List.getD_cons_succ, List.cons.injEq, and_true]
  refine ⟨?_, ?_⟩
  all_goals
    ext i hi
    simp (disch := omega) [BitVec.getLsbD_of_ge, hi]

theorem bytesOfLong_longOfBytes (p0 p1 p2 p3 : Byte) :
    bytesOfLong (longOfBytes [p0, p1, p2, p3]) = [p0, p1, p2, p3] := by
  simp only [bytesOfLong, longOfBytes, payloadByte, List.getD_cons_zero, List.getD_cons_succ, List.cons.injEq, and_true]
  refine ⟨?_, ?_, ?_, ?_⟩
  all_goals
    ext i hi
    simp (disch := omega) [BitVec.getLsbD_of_ge, decide_eq_true, hi]

/-- The instruction of a header and its fixed payload encodes to that header and payload. -/
theorem encode_frameInstr {op : OpCode} {p : List Byte} (h7 : op ≠ 7) (hp : p.length = fixedPayload op)
    (addr : RegAddr) : encode (frameInstr op addr p) = .frame (headerBytes op addr ++ p) := by
  obtain rfl | rfl | rfl | rfl | rfl | rfl | rfl | rfl | ⟨o, rfl⟩ | ⟨o, rfl⟩ | ⟨o, rfl⟩ := op_cases op
  · rw [List.length_eq_zero_iff.mp hp]; rfl
  · rw [List.length_eq_zero_iff.mp hp]; rfl
  · rw [List.length_eq_zero_iff.mp hp]; rfl
  · rw [List.length_eq_zero_iff.mp hp]; rfl
  · obtain ⟨p0, rfl⟩ := List.length_eq_one_iff.mp hp
    rfl
  · obtain ⟨p0, p1, rfl⟩ := List.length_eq_two.mp hp
    exact congrArg (fun l => Encoded.frame (headerBytes 5 addr ++ l)) (bytesOfHalf_halfOfBytes p0 p1)
  · match p, hp with
    | [p0, p1, p2, p3], _ =>
      exact congrArg (fun l => Encoded.frame (headerBytes 6 addr ++ l)) (bytesOfLong_longOfBytes p0 p1 p2 p3)
  · exact absurd rfl h7
  · rw [fixedPayload_eq_zero (.inl (rsvd8to15_op o).1), List.length_eq_zero_iff] at hp
    rw [hp, frameInstr_rsvd8to15, List.append_nil]; rfl
  · rw [fixedPayload_eq_zero (.inl (by have := (rsvd16to31_op o).1; omega)), List.length_eq_zero_iff] at hp
    rw [hp, frameInstr_rsvd16to31, List.append_nil]; rfl
  · rw [fixedPayload_eq_zero (.inl (by have := (rsvd32to63_op o).1; omega)), List.length_eq_zero_iff] at hp
    rw [hp, frameInstr_rsvd32to63, List.append_nil]; rfl

/-- A header that is not the escape gives no ill-formed instruction. -/
theorem wellFormed_frameInstr {op : OpCode} {addr : RegAddr} (he : ¬ (op = 63 ∧ addr = 0x3FF)) (h7 : op ≠ 7)
    (p : List Byte) : (frameInstr op addr p).wellFormed = true := by
  obtain rfl | rfl | rfl | rfl | rfl | rfl | rfl | rfl | ⟨o, rfl⟩ | ⟨o, rfl⟩ | ⟨o, rfl⟩ := op_cases op
  · rfl
  · rfl
  · rfl
  · rfl
  · rfl
  · rfl
  · rfl
  · exact absurd rfl h7
  · rw [frameInstr_rsvd8to15]; rfl
  · rw [frameInstr_rsvd16to31]; rfl
  · rw [(rsvd32to63_op o).2.2] at he
    rw [frameInstr_rsvd32to63]
    simpa [Instr.wellFormed, imp_iff_not_or] using he

/-- Settles O3: a header's fields are those it was made from, and the bytes are made from their fields. -/
theorem headersAndOpAddrPairsCorrespond : Obligations.HeadersAndOpAddrPairsCorrespond := by
  intro op addr b1 b2
  constructor
  · intro h
    obtain ⟨rfl, rfl⟩ : _ = b1 ∧ _ = b2 := by simpa [headerBytes] using h
    exact ⟨headerOp_headerBytes op addr, headerAddr_headerBytes op addr⟩
  · rintro ⟨rfl, rfl⟩
    exact headerBytes_of_fields b1 b2

/-- Settles O5: the three forms of a frame that decodes, each encoded again. -/
theorem decodedFrameIsItsEncoding : Obligations.DecodedFrameIsItsEncoding := by
  intro bytes i rest h
  obtain ⟨b1, b2, rfl, rfl, rfl, rfl⟩ | ⟨b1, b2, tail, rfl, he, h7, hl, rfl⟩ |
    ⟨b1, b2, n, tail, rfl, h7, hn, hl, rfl⟩ := decodeFrame_cases h
  · exact ⟨rfl, _, rfl, rfl⟩
  · have hpair : ¬ (headerOp b1 = 63 ∧ headerAddr b1 b2 = 0x3FF) := fun hf => by
      have hb := headerBytes_of_fields b1 b2
      rw [hf.1, hf.2] at hb
      cases hb
      exact absurd he (by decide)
    refine ⟨wellFormed_frameInstr hpair h7 tail, _, encode_frameInstr h7 hl _, ?_⟩
    rw [headerBytes_of_fields]; rfl
  · refine ⟨decide_eq_true (by rw [hl]; exact hn), _, rfl, ?_⟩
    rw [← h7, headerBytes_of_fields, hl, BitVec.ofNat_toNat, BitVec.setWidth_eq]; rfl

/-! ### Length -/

theorem fixedPayload_of_op :
    fixedPayload 4 = 1 ∧ fixedPayload 5 = 2 ∧ fixedPayload 6 = 4 ∧ fixedPayload 63 = 0 := ⟨rfl, rfl, rfl, rfl⟩

/-- The bytes of a frame that decodes, beside its op (R86). -/
theorem length_of_decodeFrame {b1 b2 : Byte} {tail rest : List Byte} {i : Instr}
    (h : decodeFrame (b1 :: b2 :: tail) = .ok (i, rest)) :
    (headerOp b1 ≠ 7 ∧ tail.length = fixedPayload (headerOp b1) + rest.length) ∨
    (headerOp b1 = 7 ∧ ∃ n more, tail = n :: more ∧ n.toNat ≤ 29 ∧ more.length = n.toNat + rest.length) := by
  obtain ⟨c1, c2, hb, rfl, rfl, -⟩ | ⟨c1, c2, p, hb, -, h7, hl, -⟩ | ⟨c1, c2, n, p, hb, h7, hn, hl, -⟩ :=
    decodeFrame_cases h
  · cases hb
    exact .inl ⟨by decide, by rw [show headerOp 0xFF = 63 by decide, fixedPayload_of_op.2.2.2, Nat.zero_add]⟩
  · cases hb
    exact .inl ⟨h7, by simp [hl]⟩
  · cases hb
    exact .inr ⟨h7, n, p ++ rest, rfl, hn, by simp [hl]⟩

/-- Settles O7: the header is two bytes, and the op says what follows. -/
theorem frameLengthFollowsFromOp : Obligations.FrameLengthFollowsFromOp := by
  intro b1 b2 tail rest i h
  obtain ⟨f4, f5, f6, -⟩ := fixedPayload_of_op
  simp only [List.length_cons]
  obtain ⟨h7, hl⟩ | ⟨h7, n, more, rfl, hn, hl⟩ := length_of_decodeFrame h
  · refine ⟨fun ho => ?_, fun ho => ?_, fun ho => ?_, fun ho => ?_, fun ho => absurd ho h7⟩
    · rw [fixedPayload_eq_zero (by omega)] at hl; omega
    · rw [ho, f4] at hl; omega
    · rw [ho, f5] at hl; omega
    · rw [ho, f6] at hl; omega
  · rw [h7]
    refine ⟨fun ho => absurd ho (by decide), fun ho => absurd ho (by decide), fun ho => absurd ho (by decide),
      fun ho => absurd ho (by decide), fun _ => ⟨n, more, rfl, hn, ?_⟩⟩
    rw [List.length_cons]; omega

theorem takePayload_ne_oversizeLength (op : OpCode) (addr : RegAddr) (k : Nat) (rest : List Byte) (n : Byte) :
    takePayload op addr k rest ≠ .error (.oversizeLength n) := by
  unfold takePayload
  split
  · simp
  · simp

/-- Settles O8: the length byte is looked at in one place, after a header of op 7. -/
theorem onlyOversizeLengthIsIllegal : Obligations.OnlyOversizeLengthIsIllegal := by
  intro bytes n
  constructor
  · intro h
    match bytes, h with
    | b1 :: b2 :: tail, h =>
      simp only [decodeFrame] at h
      split at h
      · cases h
      split at h
      next h7 =>
        match tail, h with
        | m :: rest, h =>
          simp only at h
          split at h
          next hn =>
            cases h
            exact ⟨b1, b2, rest, rfl, h7, hn⟩
          next => exact (takePayload_ne_oversizeLength _ _ _ _ _ h).elim
      next => exact (takePayload_ne_oversizeLength _ _ _ _ _ h).elim
  · rintro ⟨b1, b2, rest, rfl, h7, hn⟩
    have he := not_isEscape_of_op (b1 := b1) (b2 := b2) (by rw [h7]; decide)
    simp only [decodeFrame, he, h7, Config.maxMb, if_pos hn, Bool.false_eq_true, if_false, if_true]

/-! ### Payload bytes -/

/-- Settles O10: each fixed write takes its payload bytes as its operand. -/
theorem fixedWritePayloadIsBigEndian : Obligations.FixedWritePayloadIsBigEndian := by
  intro b1 b2 p0 p1 p2 p3 rest
  have hfixed : headerOp b1 ≠ 63 → headerOp b1 ≠ 7 → ∀ tail, decodeFrame (b1 :: b2 :: tail) =
      takePayload (headerOp b1) (headerAddr b1 b2) (fixedPayload (headerOp b1)) tail :=
    fun h63 h7 => decodeFrame_of_fixedOp (not_isEscape_of_op h63) h7
  refine ⟨fun h => ?_, fun h => ?_, fun h => ?_⟩
  · rw [h] at hfixed; exact hfixed (by decide) (by decide) _
  · rw [h] at hfixed; exact hfixed (by decide) (by decide) _
  · rw [h] at hfixed; exact hfixed (by decide) (by decide) _

/-- Settles O11: each data byte is the one that `memWrite` put there, or the zero it left. -/
theorem multibytePayloadIsZeroPadded : Obligations.MultibytePayloadIsZeroPadded := by
  intro data h
  refine ⟨_, _, rfl, by simp; omega, fun k => ?_⟩
  have hk := Machine.memWrite_getElem data Machine.zeroData 0 k.val k.isLt
  by_cases hlt : k.val < data.length
  · simpa [hlt] using hk
  · simpa [hlt, Machine.zeroData, List.getElem?_eq_none (Nat.not_lt.mp hlt)] using hk

/-- Settles O9: the three bytes as first header bytes are of reserved ops, whose frames are their headers. -/
theorem handshakeBytesAreHeadersWhenSynchronized : Obligations.HandshakeBytesAreHeadersWhenSynchronized := fun b2 rest =>
  ⟨⟨rfl, rfl, decodeFrame_of_reservedOp (b1 := 0xAA) (by decide) (by decide) b2 rest⟩,
    ⟨rfl, rfl, decodeFrame_of_reservedOp (b1 := 0xA5) (by decide) (by decide) b2 rest⟩,
    ⟨rfl, rfl, decodeFrame_of_reservedOp (b1 := 0x55) (by decide) (by decide) b2 rest⟩⟩

/-- Settles O1: the decoders run on the words. -/
theorem writtenOutWordsDecode : Obligations.WrittenOutWordsDecode :=
  ⟨by decide, by decide, by decide, by decide, by decide, by decide, by decide, by decide,
    fun _ => ⟨rfl, by simp [decodeHost]⟩⟩

/-! ### The opcode table -/

/-- A sync byte that asks for no handshake gets the row without a mask. -/
theorem tableRow_sb_of_ne {b : Byte} (hAA : b ≠ 0xAA) (hA5 : b ≠ 0xA5) :
    tableRow .sb b.toNat = some ⟨"DISCARD", .sb, 0x00, 0x00, 1⟩ := by
  have hmask : b.toNat &&& 0xFF = b.toNat := by
    rw [Nat.and_two_pow_sub_one_eq_mod b.toNat 8]; omega
  have h1 : b.toNat ≠ 0xAA := fun h => hAA (BitVec.eq_of_toNat_eq h)
  have h2 : b.toNat ≠ 0xA5 := fun h => hA5 (BitVec.eq_of_toNat_eq h)
  simp [tableRow, opcodeTable, syncRows, frameRows, hostRows, OpcodeRow.accepts, hmask, h1, h2]

/-- Whatever the row, two header words get the same answer from it if they agree in the bits above the address and the
row looks at no others. -/
theorem accepts_congr_op {r : OpcodeRow} (hr : r.mask % 1024 = 0) {f : Format} {v w : Nat} (h : v / 1024 = w / 1024) :
    r.accepts f v = r.accepts f w := by
  have hand : ∀ u, u &&& r.mask = (u / 1024 &&& r.mask / 1024) * 1024 := fun u => by
    have hlow : (u &&& r.mask) % 1024 = 0 := by
      rw [Nat.and_mod_two_pow (n := 10), hr, Nat.and_zero]
    have hhigh : (u &&& r.mask) / 1024 = u / 1024 &&& r.mask / 1024 := Nat.and_div_two_pow (n := 10) ..
    rw [← hhigh]; omega
  simp only [OpcodeRow.accepts, hand v, hand w, h]

/-- Every row looks at no address bit, or is the escape's, or stands in another format. -/
theorem mask_of_mem_opcodeTable : ∀ r ∈ opcodeTable,
    r.mask % 1024 = 0 ∨ r = ⟨"RESYNC", .hdr, 0xFFFF, 0xFFFF, 0⟩ ∨ r.format ≠ .hdr := by decide

/-- But for the escape, the row of a header word follows from its op. -/
theorem tableRow_hdr_congr {v w : Nat} (h : v / 1024 = w / 1024) (hv : v % 65536 ≠ 65535) (hw : w % 65536 ≠ 65535) :
    tableRow .hdr v = tableRow .hdr w := by
  have hrow : ∀ r ∈ opcodeTable, r.accepts .hdr v = r.accepts .hdr w := by
    intro r hr
    obtain hm | rfl | hf := mask_of_mem_opcodeTable r hr
    · exact accepts_congr_op hm h
    · have hmod : ∀ u, u &&& 65535 = u % 65536 := fun u => Nat.and_two_pow_sub_one_eq_mod u 16
      simp [OpcodeRow.accepts, hmod, hv, hw]
    · simp only [OpcodeRow.accepts, beq_eq_false_iff_ne.mpr hf, Bool.false_and]
  have hfirst : opcodeTable.find? (fun r => r.priority == 0 && r.accepts .hdr v) =
      opcodeTable.find? (fun r => r.priority == 0 && r.accepts .hdr w) :=
    List.find?_congr fun r hr => by rw [hrow r hr]
  have hsecond : opcodeTable.find? (fun r => r.accepts .hdr v) = opcodeTable.find? (fun r => r.accepts .hdr w) :=
    List.find?_congr hrow
  simp only [tableRow, hfirst, hsecond]

/-- The mnemonic of a frame's instruction follows from its op. -/
theorem mnemonic_frameInstr (op : OpCode) (addr : RegAddr) (p : List Byte) :
    (frameInstr op addr p).mnemonic = (frameInstr op 0 []).mnemonic := by
  obtain rfl | rfl | rfl | rfl | rfl | rfl | rfl | rfl | ⟨o, rfl⟩ | ⟨o, rfl⟩ | ⟨o, rfl⟩ := op_cases op
  · rfl
  · rfl
  · rfl
  · rfl
  · rfl
  · rfl
  · rfl
  · rfl
  · simp only [frameInstr_rsvd8to15]; rfl
  · simp only [frameInstr_rsvd16to31]; rfl
  · simp only [frameInstr_rsvd32to63]; rfl

theorem tableRow_hdr_of_op (op : OpCode) :
    (tableRow .hdr (op.toNat * 1024)).map (·.mnemonic) = some (frameInstr op 0 []).mnemonic := by
  revert op; decide

theorem headerWord_div (b1 b2 : Byte) : (b1 ++ b2).toNat / 1024 = (headerOp b1).toNat := by
  rw [headerOp_eq_field, BitVec.toNat_append, ← Nat.shiftLeft_add_eq_or_of_lt b2.isLt]
  simp [Nat.shiftLeft_eq]; omega

/-- A header that is not the escape has the row of its op (R88). -/
theorem tableRow_hdr_of_header {b1 b2 : Byte} (he : isEscape b1 b2 = false) (p : List Byte) :
    (tableRow .hdr (b1 ++ b2).toNat).map (·.mnemonic) = some (frameInstr (headerOp b1) (headerAddr b1 b2) p).mnemonic := by
  have hne : (b1 ++ b2).toNat ≠ 65535 := fun h => by
    rw [BitVec.toNat_append, ← Nat.shiftLeft_add_eq_or_of_lt b2.isLt, Nat.shiftLeft_eq] at h
    have h1 : b1 = 0xFF := BitVec.eq_of_toNat_eq (by simp; omega)
    have h2 : b2 = 0xFF := BitVec.eq_of_toNat_eq (by simp; omega)
    simp [isEscape, h1, h2] at he
  rw [mnemonic_frameInstr, ← tableRow_hdr_of_op]
  refine congrArg _ (tableRow_hdr_congr ?_ (by omega) (by omega))
  rw [headerWord_div]; omega

theorem cmd_cases (c : BitVec 3) : c = 0 ∨ c = 1 ∨ c = 2 ∨ c = 3 ∨ c = 4 ∨ c = 5 ∨ c = 6 ∨ c = 7 := by
  revert c; decide

/-- The mnemonic of a host command follows from its CMD. -/
theorem mnemonic_decodeHost (c : BitVec 3) (h : HandlerId) :
    (decodeHost ⟨c, h⟩).mnemonic = (decodeHost ⟨c, Config.firstHandler⟩).mnemonic := by
  obtain rfl | rfl | rfl | rfl | rfl | rfl | rfl | rfl := cmd_cases c
  all_goals rfl

theorem tableRow_host (c : BitVec 3) :
    (tableRow .host c.toNat).map (·.mnemonic) = some (decodeHost ⟨c, Config.firstHandler⟩).mnemonic := by
  revert c; decide

/-- Settles O6: sync bytes by the two handshake bytes, frames by their op or the escape, host words by their CMD. -/
theorem decodersFollowTheOpcodeTable : Obligations.DecodersFollowTheOpcodeTable := by
  refine ⟨fun b => ?_, fun b1 b2 tail rest i h => ?_, fun w => ?_⟩
  · by_cases hAA : b = 0xAA
    · subst hAA; decide
    by_cases hA5 : b = 0xA5
    · subst hA5; decide
    rw [tableRow_sb_of_ne hAA hA5, decodeSyncByte_of_ne hAA hA5]; rfl
  · obtain ⟨c1, c2, hb, rfl, rfl, rfl⟩ | ⟨c1, c2, p, hb, he, -, -, rfl⟩ | ⟨c1, c2, n, p, hb, h7, -, -, rfl⟩ :=
      decodeFrame_cases h
    · cases hb; decide
    · cases hb
      exact tableRow_hdr_of_header he p
    · cases hb
      have hrow := tableRow_hdr_of_header (not_isEscape_of_op (b2 := b2) (by rw [h7]; decide)) p
      rw [h7] at hrow
      exact hrow
  · exact (tableRow_host w.cmd).trans (congrArg some (mnemonic_decodeHost w.cmd w.h).symm)

end Sys2Proof
end

section
/-! PROOFS. The interface primitives (spec/00_scope.md R11), a POLL while UNSYNC and the host commands of spec/40_sync.md
(R110 to R117), and the codes and reset values of spec/10_state.md. -/

namespace Sys2Proof.Machine

/-! ### Primitives -/

theorem rxRead_free {s : State} (h : s.rxScript = []) :
    rxRead s = (Config.freeRx s.draws, { s with
      draws := s.draws + 1, tmo := tmoOf (Config.freeRx s.draws),
      trace := s.trace ++ [rxEvent (Config.freeRx s.draws)] }) := by
  simp [rxRead, h]

/-- Settles O20: a scripted answer is the script's, a free one a byte or TIMEOUT; a write is one event. -/
theorem readWritesTheTimeoutFlag : Obligations.ReadWritesTheTimeoutFlag := by
  refine ⟨fun s b q h => rxRead_scripted h, fun s q h => rxRead_scripted h, fun s h => ?_, fun b s => rfl⟩
  rw [rxRead_free h]
  cases Config.freeRx s.draws with
  | byte b => exact .inl ⟨b, rfl⟩
  | timeout => exact .inr rfl

/-- Settles O32: an answer has a field for each kind, and the call's kind selects it. -/
theorem handlerAnswersAreAllPayloadsOfTheKind : Obligations.HandlerAnswersAreAllPayloadsOfTheKind := by
  refine ⟨kind_answerPayload, fun claimed pl => ?_⟩
  cases pl with
  | none => exact ⟨{ (default : HandlerAnswer) with claimed }, rfl, rfl⟩
  | u8 v => exact ⟨{ (default : HandlerAnswer) with claimed, u8 := v }, rfl, rfl⟩
  | u16 v => exact ⟨{ (default : HandlerAnswer) with claimed, u16 := v }, rfl, rfl⟩
  | u32 v => exact ⟨{ (default : HandlerAnswer) with claimed, u32 := v }, rfl, rfl⟩
  | mb n d => exact ⟨{ (default : HandlerAnswer) with claimed, size := n, data := d }, rfl, rfl⟩

/-! ### Sync bytes and timeouts while UNSYNC -/

theorem exec_syncckreq (s : State) :
    exec .syncckreq s = .next { s with sync := .syncCk, trace := s.trace ++ [.tx 0x55] } := rfl

/-- Settles O12: the poll ends with P_IDLE and no result. -/
theorem stepRunsTheDecodedSyncByte : Obligations.StepRunsTheDecodedSyncByte := fun _ _ _ _ _ _ h hs =>
  step_of_unsync_byte h hs

/-- Settles O14: the step is exec of SYNCCKREQ and the poll's end. -/
theorem syncCkReqEntersSyncCk : Obligations.SyncCkReqEntersSyncCk := by
  refine ⟨exec_syncckreq, fun s w q p r h hs => ?_⟩
  rw [step_of_unsync_byte h hs, show decodeSyncByte 0xA5 = .syncckreq from rfl, exec_syncckreq]
  simp [andThen, endPoll_eq, polled, h.idle]

/-- Settles O16: the read times out, and recovery while UNSYNC does nothing. -/
theorem timeoutWhenUnsyncSendsNothing : Obligations.TimeoutWhenUnsyncSendsNothing := by
  intro s w q p r h hs
  rw [step_of_polls h, if_pos hs]
  simp only [continuePoll, fetchSyncByte]
  rw [rxRead_scripted (r := .timeout) (q := r) rfl]
  simp only [completePoll]
  rw [desync_unsynced (by exact hs)]
  simp [endPoll_eq, polled, h.idle, tmoOf, rxEvent]

/-! ### POLL up to its first read -/

/-- POLL asks once, and the answer decides where it stands. -/
theorem exec_poll_of_rxPending {s t : State} {b : Bool} (h : rxPending s = (b, t)) :
    exec .poll s = .next (if b then t.setPhase (if t.sync = .unsync then .syncByte else .hdr1)
      else finishCommand .none t) := by
  simp only [exec, execPoll, enterPoll, h]

/-- Settles O21: a scripted answer is true or false, and a free one is one of the two. -/
theorem pollAsksPendingFirst : Obligations.PollAsksPendingFirst := by
  refine ⟨fun s p h => ?_, fun s p h => ?_, fun s h => ⟨Config.freePending s.draws, ?_⟩⟩
  · rw [exec_poll_of_rxPending (rxPending_scripted h)]
    simp [finishCommand_eq]
  · rw [exec_poll_of_rxPending (rxPending_scripted h)]
    rfl
  · rw [exec_poll_of_rxPending (rxPending_free h)]
    cases Config.freePending s.draws with
    | false => simp [finishCommand_eq]
    | true => rfl

/-- Settles O22: the poll ends where it asked, with P_IDLE as before. -/
theorem pollWithNothingPendingDoesNothing : Obligations.PollWithNothingPendingDoesNothing := by
  intro s w q p hi hq hw hp
  rw [step_of_command hi hq, decodeHost_of_poll hw,
    exec_poll_of_rxPending (rxPending_scripted (b := false) (q := p) (by exact hp))]
  simp [finishCommand_eq, andThen, continuePoll, hi]

/-! ### The other host commands -/

theorem exec_reset (s : State) : exec .reset s = .next { s with
    sync := .unsync, tmo := false, pb := .none, slots := Vector.replicate 16 none, phase := .idle,
    trace := s.trace ++ (floodEvents ++ [.result .none]) } := by
  simp only [exec, execReset, resetEngine]
  rw [desync_synced (.inl rfl)]
  simp [finishCommand_eq, State.setPhase, floodEvents]

/-- Settles O24: RESET is forced recovery with the elements of R117 set. -/
theorem resetFloodsAndClears : Obligations.ResetFloodsAndClears := exec_reset

/-- Settles O25: the reset state by its definition, every other state by `exec_reset`. -/
theorem resetStateIsWhatResetLeaves : Obligations.ResetStateIsWhatResetLeaves :=
  ⟨rfl, rfl, rfl, by decide, rfl, by decide, fun s => ⟨_, exec_reset s, rfl, rfl, rfl, rfl, rfl⟩⟩

/-- Settles O26: an illegal command is the end of a command, with its code. -/
theorem illegalCommandsOnlyReturnIllegal : Obligations.IllegalCommandsOnlyReturnIllegal :=
  ⟨fun s => congrArg Host.Outcome.next (finishCommand_eq _ s), fun _ s => congrArg Host.Outcome.next (finishCommand_eq _ s)⟩

/-- Where a host command leaves S.PHASE: in P_IDLE, or, with S.SYNC as it was, at the first read of a POLL. -/
theorem exec_decodeHost_phase {w : HostWord} {s t : State} (hi : s.phase = .idle)
    (h : exec (decodeHost w) s = .next t) :
    t.phase = .idle ∨
    decodeHost w = .poll ∧ t.sync = s.sync ∧ t.phase = if s.sync = .unsync then .syncByte else .hdr1 := by
  unfold decodeHost at h ⊢
  split at h
  case h_1 => cases h; exact .inl rfl
  case h_2 =>
    obtain ⟨b, u, hu, hsync, -, -, -, -, -, -, -, -, hend⟩ := exec_poll_cases s
    cases hu.symm.trans h
    obtain ⟨-, -, hp⟩ | ⟨-, -, hp⟩ := hend
    · exact .inl (hp.trans hi)
    · exact .inr ⟨rfl, hsync, hp⟩
  case h_3 =>
    obtain ⟨b, d, hb⟩ := rxPending_cases s
    rw [exec_pending_of_rxPending hb] at h
    cases h; exact .inl hi
  case h_4 =>
    cases h
    obtain ⟨i, -, he⟩ | he := replaceFirst_cases none (some w.h) s
    · exact .inl (he ▸ hi)
    · exact .inl (he ▸ hi)
  case h_5 =>
    cases h
    obtain ⟨i, -, he⟩ | he := replaceFirst_cases (some w.h) none s
    · exact .inl (he ▸ hi)
    · exact .inl (he ▸ hi)
  case h_6 => cases h; exact .inl hi
  case h_7 => cases h; exact .inl hi

theorem decodeHost_ne_poll {w : HostWord} (h : w.cmd ≠ 1) : decodeHost w ≠ .poll := by
  unfold decodeHost
  split
  case h_2 h1 => exact absurd (BitVec.eq_of_toNat_eq h1) h
  all_goals simp

/-- Settles O18: a command that is no POLL leaves the engine in P_IDLE, where nothing of a poll is left to run. -/
theorem stepRunsTheHostCommand : Obligations.StepRunsTheHostCommand := by
  intro s w q hi hq hw
  rw [step_of_command hi hq]
  generalize hs : ({ s with hostQueue := q, trace := s.trace ++ [.command (decodeHost w)] } : State) = u
  have hu : u.phase = .idle := hs ▸ hi
  cases he : exec (decodeHost w) u with
  | next t =>
    obtain ht | ⟨hp, -⟩ := exec_decodeHost_phase hu he
    · simp [andThen, continuePoll, ht]
    · exact absurd hp (decodeHost_ne_poll hw)
  | fault r => rfl
  | refused r => rfl

/-- Settles O19: with no command to run the step is no change. -/
theorem noCommandNoChange : Obligations.NoCommandNoChange := fun _ => step_of_noCommand

/-- Settles O58: the free command stands where the queued one would. -/
theorem freeCommandRunsLikeAQueuedOne : Obligations.FreeCommandRunsLikeAQueuedOne := fun _ => step_of_freeCommand

/-! ### Codes and reset values -/

/-- Settles O57: the three tables of codes, value by value. -/
theorem codesAreThoseOfTheTables : Obligations.CodesAreThoseOfTheTables := ⟨by decide, by decide, by decide⟩

/-- Settles O49: at reset the table is empty, F.CNT is 0 and the engine is UNSYNC. -/
theorem invHoldsAtReset : Obligations.InvHoldsAtReset where
  idle := rfl
  count := Nat.zero_le 29
  registered i h hi := by
    have hempty : State.reset.slots[i] = none := by simp [State.reset]
    rw [hempty] at hi
    cases hi
  quiet h := absurd rfl h

end Sys2Proof.Machine
end

section
/-! PROOFS. An equation for each case of the functions that fetch (spec/40_sync.md R111, spec/41_frame_decoder.md R140 to
R154), issue a command (R13) or change the table (R172, R173): what the later sections rewrite with. -/

namespace Sys2Proof.Machine

/-! ### One read of a fetch -/

theorem fetchSyncByte_of_byte {s t : State} {b : Byte} (h : rxRead s = (.byte b, t)) :
    fetchSyncByte s = .instr (decodeSyncByte b) t := by
  simp only [fetchSyncByte, h]

theorem fetchSyncByte_of_timeout {s t : State} (h : rxRead s = (.timeout, t)) :
    fetchSyncByte s = .trap .timeout t := by
  simp only [fetchSyncByte, h]

/-- The frame registers with payload bytes put into F.RAW from F.CNT on (R154). -/
def FrameRegs.append (f : FrameRegs) (bytes : List Byte) : FrameRegs :=
  { f with raw := memWrite f.raw f.cnt bytes, cnt := f.cnt + bytes.length }

theorem readPayload_of_byte {n : Nat} {s t : State} {b : Byte} (h : rxRead s = (.byte b, t)) :
    readPayload (n + 1) s = readPayload n (t.setFrame (t.frame.append [b])) := by
  simp only [readPayload, h]; rfl

theorem readPayload_of_timeout_first {n : Nat} {s t : State} (h : rxRead s = (.timeout, t)) :
    readPayload (n + 1) s = .error t := by
  simp only [readPayload, h]

theorem fetchData_of_ok {s t : State} (h : readPayload (payloadNeed s.frame - s.frame.cnt) s = .ok t) :
    fetchData s =
      .instr (frameInstr t.frame.op t.frame.addr (t.frame.raw.toList.take (payloadNeed t.frame))) t := by
  simp only [fetchData, h]

theorem fetchData_of_error {s t : State} (h : readPayload (payloadNeed s.frame - s.frame.cnt) s = .error t) :
    fetchData s = .trap .timeout t := by
  simp only [fetchData, h]

theorem fetchLen_of_byte {s t : State} {n : Byte} (h : rxRead s = (.byte n, t)) :
    fetchLen s = if n.toNat > 29 then .trap .oversizeLength (t.setFrame { t.frame with len := n })
      else startPayload (t.setFrame { t.frame with len := n }) := by
  simp only [fetchLen, h]

theorem fetchLen_of_timeout {s t : State} (h : rxRead s = (.timeout, t)) : fetchLen s = .trap .timeout t := by
  simp only [fetchLen, h]

theorem fetchHdr2_of_byte {s t : State} {b2 : Byte} (h : rxRead s = (.byte b2, t)) :
    fetchHdr2 s = if isEscape t.frame.b1 b2 then .instr .resync (t.setFrame { t.frame with b2 := b2 })
      else acceptHeader (t.setFrame { t.frame with b2 := b2 }) := by
  simp only [fetchHdr2, h]; rfl

theorem fetchHdr2_of_timeout {s t : State} (h : rxRead s = (.timeout, t)) : fetchHdr2 s = .trap .timeout t := by
  simp only [fetchHdr2, h]

theorem fetchHdr1_of_byte {s t : State} {b1 : Byte} (h : rxRead s = (.byte b1, t)) :
    fetchHdr1 s = fetchHdr2 ((t.setFrame { t.frame with b1 := b1 }).setPhase .hdr2) := by
  simp only [fetchHdr1, h]

theorem fetchHdr1_of_timeout {s t : State} (h : rxRead s = (.timeout, t)) : fetchHdr1 s = .trap .timeout t := by
  simp only [fetchHdr1, h]

/-! ### After the header -/

/-- The state that `acceptHeader` goes on from, for any header in F.B1 and F.B2 (R144, R145). -/
def headerDecoded (s : State) : State :=
  (s.setFrame { s.frame with op := headerOp s.frame.b1, addr := headerAddr s.frame.b1 s.frame.b2 }).setPb
    (cleared (kindOf (headerOp s.frame.b1)))

theorem acceptHeader_eq (s : State) :
    acceptHeader s =
      if headerOp s.frame.b1 = 7 then fetchLen ((headerDecoded s).setPhase .len)
      else if fixedPayload (headerOp s.frame.b1) = 0 then
        .instr (frameInstr (headerOp s.frame.b1) (headerAddr s.frame.b1 s.frame.b2) []) (headerDecoded s)
      else startPayload (headerDecoded s) := rfl

/-! ### Issuing a command -/

theorem nextCommand_queued {s : State} {w : HostWord} {q : List HostWord} (h : s.hostQueue = w :: q) :
    nextCommand s = some (w, { s with hostQueue := q }) := by
  simp only [nextCommand, h]

theorem nextCommand_free {s : State} (h : s.hostQueue = []) (hg : s.hostGoesOn = true) :
    nextCommand s = some (freeCommand s.draws, { s with draws := s.draws + 1 }) := by
  simp [nextCommand, h, hg]

theorem nextCommand_none {s : State} (h : s.hostQueue = []) (hg : s.hostGoesOn = false) : nextCommand s = none := by
  simp [nextCommand, h, hg]

/-- HOST's next command, whether queued or free, and what is left; or none (R5, R330). -/
theorem nextCommand_cases (s : State) :
    (nextCommand s = none ∧ s.hostQueue = [] ∧ s.hostGoesOn = false) ∨
    ∃ w d, nextCommand s = some (w, { s with hostQueue := s.hostQueue.tail, draws := d }) ∧
      (s.hostQueue.head? = some w ∨ s.hostQueue = [] ∧ s.hostGoesOn = true) := by
  cases hq : s.hostQueue with
  | cons w q => exact .inr ⟨w, s.draws, nextCommand_queued hq, .inl rfl⟩
  | nil =>
    cases hg : s.hostGoesOn with
    | false => exact .inl ⟨nextCommand_none hq hg, rfl, rfl⟩
    | true =>
      have hn := nextCommand_free hq hg
      exact .inr ⟨freeCommand s.draws, s.draws + 1, hn.trans (by simp [hq, hg]), .inr ⟨rfl, rfl⟩⟩

theorem step_of_nextCommand {s u : State} {w : HostWord} (hi : s.phase = .idle) (h : nextCommand s = some (w, u)) :
    step s = andThen (exec (decodeHost w) (issueCommand w u)) continuePoll := by
  simp only [step, hi, if_true, runCommand, h]

theorem step_of_nextCommand_none {s : State} (hi : s.phase = .idle) (h : nextCommand s = none) :
    step s = .next s := by
  simp only [step, hi, if_true, runCommand, h]

/-! ### Continuing a poll -/

theorem continuePoll_of_idle {s : State} (h : s.phase = .idle) : continuePoll s = .next s := by
  simp only [continuePoll, h]

theorem continuePoll_of_syncByte {s : State} (h : s.phase = .syncByte) :
    continuePoll s = completePoll (fetchSyncByte s) := by
  simp only [continuePoll, h]

theorem continuePoll_of_hdr1 {s : State} (h : s.phase = .hdr1) : continuePoll s = completePoll (fetchHdr1 s) := by
  simp only [continuePoll, h]

/-! ### REGISTER and UNREGISTER -/

theorem replaceFirst_of_some {old new : Option HandlerId} {s : State} {i : Fin 16} (h : firstSlot s.slots old = some i) :
    replaceFirst old new s = { s with
      slots := s.slots.set i new, trace := s.trace ++ [.result (.code (BitVec.ofNat 5 i.val))] } := by
  simp only [replaceFirst, h, finishCommand_eq]

theorem replaceFirst_of_none {old new : Option HandlerId} {s : State} (h : firstSlot s.slots old = none) :
    replaceFirst old new s = { s with trace := s.trace ++ [.result (.code 0x10)] } := by
  simp only [replaceFirst, h, finishCommand_eq, noSlot]

end Sys2Proof.Machine
end

section
/-! PROOFS. Two states that cannot be told apart: SYNC and SYNC_CK exchanged (spec/10_state.md R23). What a command does is
followed from the one state to the other, operation by operation. -/

namespace Sys2Proof.Machine

/-! ### What operations do to a state with S.SYNC, S.PB, S.TMO or F.* changed -/

/-- The state with S.SYNC, S.PB, S.TMO and F.* each changed by a function. -/
def State.mapEngine (fs : SyncState → SyncState) (fp : Payload → Payload) (ft : Bool → Bool)
    (ff : FrameRegs → FrameRegs) (s : State) : State :=
  { s with sync := fs s.sync, pb := fp s.pb, tmo := ft s.tmo, frame := ff s.frame }

/-- The state of a fetch changed by a function. -/
def Fetched.map (g : State → State) : Fetched → Fetched
  | .instr i s => .instr i (g s)
  | .trap cause s => .trap cause (g s)

section
variable (fs : SyncState → SyncState) (fp : Payload → Payload) (ft : Bool → Bool) (ff : FrameRegs → FrameRegs)

theorem rxPending_mapEngine {s t : State} {b : Bool} (h : rxPending s = (b, t)) :
    rxPending (s.mapEngine fs fp ft ff) = (b, t.mapEngine fs fp ft ff) := by
  cases hs : s.pendScript with
  | nil =>
    rw [rxPending_free hs] at h
    cases h
    exact rxPending_free (s := s.mapEngine fs fp ft ff) hs
  | cons c q =>
    rw [rxPending_scripted hs] at h
    cases h
    exact rxPending_scripted (s := s.mapEngine fs fp ft ff) hs

/-- A read writes S.TMO, so that no change of it is left. -/
theorem rxRead_mapEngine {s t : State} {r : RxAnswer} (h : rxRead s = (r, t)) :
    rxRead (s.mapEngine fs fp ft ff) = (r, t.mapEngine fs fp id ff) := by
  cases hs : s.rxScript with
  | nil =>
    rw [rxRead_free hs] at h
    cases h
    exact rxRead_free (s := s.mapEngine fs fp ft ff) hs
  | cons c q =>
    rw [rxRead_scripted hs] at h
    cases h
    exact rxRead_scripted (s := s.mapEngine fs fp ft ff) hs

theorem nextCommand_mapEngine (s : State) :
    nextCommand (s.mapEngine fs fp ft ff) = (nextCommand s).map fun x => (x.1, x.2.mapEngine fs fp ft ff) := by
  cases hq : s.hostQueue with
  | cons w q =>
    rw [nextCommand_queued hq, nextCommand_queued (s := s.mapEngine fs fp ft ff) hq]
    rfl
  | nil =>
    cases hg : s.hostGoesOn with
    | true =>
      rw [nextCommand_free hq hg, nextCommand_free (s := s.mapEngine fs fp ft ff) hq hg]
      rfl
    | false =>
      rw [nextCommand_none hq hg, nextCommand_none (s := s.mapEngine fs fp ft ff) hq hg]
      rfl

theorem exec_pending_mapEngine (s : State) :
    exec .pending (s.mapEngine fs fp ft ff) = mapNext (State.mapEngine fs fp ft ff) (exec .pending s) := by
  rcases h : rxPending s with ⟨b, t⟩
  rw [exec_pending_of_rxPending h, exec_pending_of_rxPending (rxPending_mapEngine fs fp ft ff h)]
  rfl

theorem replaceFirst_mapEngine (old new : Option HandlerId) (s : State) :
    replaceFirst old new (s.mapEngine fs fp ft ff) = (replaceFirst old new s).mapEngine fs fp ft ff := by
  cases h : firstSlot s.slots old with
  | none => rw [replaceFirst_of_none h, replaceFirst_of_none (s := s.mapEngine fs fp ft ff) h]; rfl
  | some i => rw [replaceFirst_of_some h, replaceFirst_of_some (s := s.mapEngine fs fp ft ff) h]; rfl

/-- POLL asks only whether the engine is UNSYNC. -/
theorem exec_poll_mapEngine (hfs : ∀ v, fs v = .unsync ↔ v = .unsync) (s : State) :
    exec .poll (s.mapEngine fs fp ft ff) = mapNext (State.mapEngine fs fp ft ff) (exec .poll s) := by
  rcases h : rxPending s with ⟨b, t⟩
  have ht : (t.mapEngine fs fp ft ff).sync = .unsync ↔ t.sync = .unsync := hfs t.sync
  rw [exec_poll_of_rxPending h, exec_poll_of_rxPending (rxPending_mapEngine fs fp ft ff h)]
  simp only [ht]
  cases b with
  | false => rfl
  | true => rfl

/-- Recovery asks only whether the engine is UNSYNC, and leaves it UNSYNC. -/
theorem desync_mapEngine (hfs : ∀ v, fs v = .unsync ↔ v = .unsync) (form : DesyncForm) (cause : Cause) (s : State) :
    desync form cause (s.mapEngine fs fp ft ff) = (desync form cause s).mapEngine fs fp ft ff := by
  have hs : (s.mapEngine fs fp ft ff).sync ≠ .unsync ↔ s.sync ≠ .unsync := not_congr (hfs s.sync)
  have hend : fs .unsync = .unsync := (hfs .unsync).mpr rfl
  simp only [desync, hs]
  split
  · simp [State.mapEngine, State.setSync, txWrite, State.setPhase, State.observe, hend]
  · simp [State.mapEngine, State.setSync, hend]

/-! ### Register operations look at none of S.SYNC, S.TMO and F.* -/

theorem nextReply_mapEngine (s : State) :
    nextReply (s.mapEngine fs fp ft ff) = ((nextReply s).1, (nextReply s).2.mapEngine fs fp ft ff) := by
  cases h : s.replyScript with
  | nil => rw [nextReply_free h, nextReply_free (s := s.mapEngine fs fp ft ff) h]; rfl
  | cons r q => rw [nextReply_scripted h, nextReply_scripted (s := s.mapEngine fs fp ft ff) h]; rfl

theorem hCall_mapEngine (i : Fin 16) (h : HandlerId) (op : OpCode) (addr : RegAddr) (s : State) :
    hCall i h op addr (s.mapEngine fs id ft ff) =
      (hCall i h op addr s).map fun x => (x.1, x.2.mapEngine fs id ft ff) := by
  simp only [hCall, nextReply_mapEngine]
  obtain ⟨r, t⟩ := nextReply s
  cases r with
  | returns a => rfl
  | neverReturns => rfl

theorem callAll_mapEngine (op : OpCode) (addr : RegAddr) : ∀ (sl : List (Fin 16 × HandlerId)) (s : State),
    callAll op addr sl (s.mapEngine fs id ft ff) = (callAll op addr sl s).map (State.mapEngine fs id ft ff)
  | [], s => rfl
  | (i, h) :: sl, s => by
    simp only [callAll, hCall_mapEngine]
    cases hCall i h op addr s with
    | none => rfl
    | some x => exact callAll_mapEngine op addr sl x.2

theorem callFirst_mapEngine (op : OpCode) (addr : RegAddr) : ∀ (sl : List (Fin 16 × HandlerId)) (s : State),
    callFirst op addr sl (s.mapEngine fs id ft ff) =
      (callFirst op addr sl s).map fun x => (x.1, x.2.mapEngine fs id ft ff)
  | [], s => rfl
  | (i, h) :: sl, s => by
    simp only [callFirst, hCall_mapEngine]
    obtain _ | ⟨c, t⟩ := hCall i h op addr s
    · rfl
    · cases c with
      | true => rfl
      | false => exact callFirst_mapEngine op addr sl t

theorem readOp_mapEngine (op : OpCode) (addr : RegAddr) (s : State) :
    readOp op addr (s.mapEngine fs id ft ff) = mapNext (State.mapEngine fs id ft ff) (readOp op addr s) := by
  have hd : dispatchFirst op addr ((s.mapEngine fs id ft ff).setPb (cleared (kindOf op))) =
      (dispatchFirst op addr (s.setPb (cleared (kindOf op)))).map fun x => (x.1, x.2.mapEngine fs id ft ff) :=
    callFirst_mapEngine fs ft ff op addr (occupied s.slots) ((s.setPb (cleared (kindOf op))).setPhase .dispatch)
  simp only [readOp, hd]
  obtain _ | ⟨c, t⟩ := dispatchFirst op addr (s.setPb (cleared (kindOf op)))
  · rfl
  · simp only [Option.map_some, mapNext, encodeRead_eq]
    rfl

theorem writeOp_mapEngine (op : OpCode) (addr : RegAddr) (pl : Payload) (s : State) :
    writeOp op addr pl (s.mapEngine fs id ft ff) = mapNext (State.mapEngine fs id ft ff) (writeOp op addr pl s) := by
  have hd : dispatchAll op addr ((s.mapEngine fs id ft ff).setPb pl) =
      (dispatchAll op addr (s.setPb pl)).map (State.mapEngine fs id ft ff) :=
    callAll_mapEngine fs ft ff op addr (occupied s.slots) ((s.setPb pl).setPhase .dispatch)
  simp only [writeOp, hd]
  cases dispatchAll op addr (s.setPb pl) with
  | none => rfl
  | some t => rfl

end

/-- A frame's instruction is one register operation, whatever the state (`exec_frameInstr_cases` for all states at
once). -/
theorem exec_frameInstr_form (op : OpCode) (addr : RegAddr) (p : List Byte) :
    (∃ op' addr', exec (frameInstr op addr p) = readOp op' addr') ∨
    (∃ op' addr' pl, exec (frameInstr op addr p) = writeOp op' addr' pl) ∨
    (exec (frameInstr op addr p) = fun s => .next (reservedOp s)) := by
  obtain rfl | rfl | rfl | rfl | rfl | rfl | rfl | rfl | ⟨o, rfl⟩ | ⟨o, rfl⟩ | ⟨o, rfl⟩ := op_cases op
  · exact .inl ⟨0, addr, rfl⟩
  · exact .inl ⟨1, addr, rfl⟩
  · exact .inl ⟨2, addr, rfl⟩
  · exact .inl ⟨3, addr, rfl⟩
  · exact .inr (.inl ⟨4, addr, _, rfl⟩)
  · exact .inr (.inl ⟨5, addr, _, rfl⟩)
  · exact .inr (.inl ⟨6, addr, _, rfl⟩)
  · exact .inr (.inl ⟨7, addr, _, rfl⟩)
  · rw [frameInstr_rsvd8to15]; exact .inr (.inr rfl)
  · rw [frameInstr_rsvd16to31]; exact .inr (.inr rfl)
  · rw [frameInstr_rsvd32to63]; exact .inr (.inr rfl)

/-! ### The exchange of SYNC and SYNC_CK -/

theorem swap_eq_unsync_iff (v : SyncState) : v.swap = .unsync ↔ v = .unsync := by cases v <;> decide

theorem exec_frameInstr_swapSync (op : OpCode) (addr : RegAddr) (p : List Byte) (s : State) :
    exec (frameInstr op addr p) (swapSync s) = mapNext swapSync (exec (frameInstr op addr p) s) := by
  obtain ⟨op', addr', h⟩ | ⟨op', addr', pl, h⟩ | h := exec_frameInstr_form op addr p
  · rw [h]; exact readOp_mapEngine SyncState.swap id id op' addr' s
  · rw [h]; exact writeOp_mapEngine SyncState.swap id id op' addr' pl s
  · rw [h]; rfl

theorem rxRead_swapSync {s t : State} {r : RxAnswer} (h : rxRead s = (r, t)) :
    rxRead (swapSync s) = (r, swapSync t) := rxRead_mapEngine SyncState.swap id id id h

theorem readPayload_swapSync : ∀ (n : Nat) (s : State),
    readPayload n (swapSync s) = ((readPayload n s).map swapSync).mapError swapSync
  | 0, s => rfl
  | n + 1, s => by
    rcases h : rxRead s with ⟨b | _, t⟩
    · rw [readPayload_of_byte h, readPayload_of_byte (rxRead_swapSync h)]
      exact readPayload_swapSync n (t.setFrame (t.frame.append [b]))
    · rw [readPayload_of_timeout_first h, readPayload_of_timeout_first (rxRead_swapSync h)]
      rfl

theorem fetchData_swapSync (s : State) : fetchData (swapSync s) = (fetchData s).map swapSync := by
  have hs := readPayload_swapSync (payloadNeed s.frame - s.frame.cnt) s
  cases h : readPayload (payloadNeed s.frame - s.frame.cnt) s with
  | ok t =>
    rw [h] at hs
    rw [fetchData_of_ok h, fetchData_of_ok hs]
    rfl
  | error t =>
    rw [h] at hs
    rw [fetchData_of_error h, fetchData_of_error hs]
    rfl

theorem startPayload_swapSync (s : State) : startPayload (swapSync s) = (startPayload s).map swapSync :=
  fetchData_swapSync ((s.setPhase .data).setFrame { s.frame with cnt := 0 })

theorem fetchLen_swapSync (s : State) : fetchLen (swapSync s) = (fetchLen s).map swapSync := by
  rcases h : rxRead s with ⟨n | _, t⟩
  · rw [fetchLen_of_byte h, fetchLen_of_byte (rxRead_swapSync h), apply_ite (Fetched.map swapSync),
      ← startPayload_swapSync]
    rfl
  · rw [fetchLen_of_timeout h, fetchLen_of_timeout (rxRead_swapSync h)]
    rfl

theorem acceptHeader_swapSync (s : State) : acceptHeader (swapSync s) = (acceptHeader s).map swapSync := by
  rw [acceptHeader_eq, acceptHeader_eq, apply_ite (Fetched.map swapSync), apply_ite (Fetched.map swapSync),
    ← fetchLen_swapSync, ← startPayload_swapSync]
  rfl

theorem fetchHdr2_swapSync (s : State) : fetchHdr2 (swapSync s) = (fetchHdr2 s).map swapSync := by
  rcases h : rxRead s with ⟨b2 | _, t⟩
  · rw [fetchHdr2_of_byte h, fetchHdr2_of_byte (rxRead_swapSync h), apply_ite (Fetched.map swapSync),
      ← acceptHeader_swapSync]
    rfl
  · rw [fetchHdr2_of_timeout h, fetchHdr2_of_timeout (rxRead_swapSync h)]
    rfl

theorem fetchHdr1_swapSync (s : State) : fetchHdr1 (swapSync s) = (fetchHdr1 s).map swapSync := by
  rcases h : rxRead s with ⟨b1 | _, t⟩
  · rw [fetchHdr1_of_byte h, fetchHdr1_of_byte (rxRead_swapSync h), ← fetchHdr2_swapSync]
    rfl
  · rw [fetchHdr1_of_timeout h, fetchHdr1_of_timeout (rxRead_swapSync h)]
    rfl

theorem desync_swapSync (form : DesyncForm) (cause : Cause) (s : State) :
    desync form cause (swapSync s) = swapSync (desync form cause s) :=
  desync_mapEngine SyncState.swap id id id swap_eq_unsync_iff form cause s

/-! ### The exchange through a command -/

theorem andThen_mapNext {g : State → State} {o : Host.Outcome State Fault Refusal}
    {f : State → Host.Outcome State Fault Refusal} (h : ∀ t, o = .next t → f (g t) = mapNext g (f t)) :
    andThen (mapNext g o) f = mapNext g (andThen o f) := by
  cases o with
  | next t => exact h t rfl
  | fault r => rfl
  | refused r => rfl

theorem exec_frame_swapSync {i : Instr} (hi : IsFrameInstr i) (s : State) :
    exec i (swapSync s) = mapNext swapSync (exec i s) := by
  obtain ⟨op, addr, p, rfl⟩ | rfl := hi
  · exact exec_frameInstr_swapSync op addr p s
  · exact congrArg Host.Outcome.next (desync_swapSync .triggered .protocolViolation s)

theorem completePoll_swapSync {f : Fetched} (hf : ∀ i s, f = .instr i s → IsFrameInstr i) :
    completePoll (f.map swapSync) = mapNext swapSync (completePoll f) := by
  cases f with
  | instr i s =>
    simp only [completePoll, Fetched.map, exec_frame_swapSync (hf i s rfl)]
    exact andThen_mapNext fun t _ => rfl
  | trap cause s =>
    simp only [completePoll, Fetched.map, desync_swapSync]
    rfl

theorem exec_decodeHost_swapSync (w : HostWord) (s : State) :
    exec (decodeHost w) (swapSync s) = mapNext swapSync (exec (decodeHost w) s) := by
  unfold decodeHost
  split
  · rw [exec_reset, exec_reset]; rfl
  · exact exec_poll_mapEngine SyncState.swap id id id swap_eq_unsync_iff s
  · exact exec_pending_mapEngine SyncState.swap id id id s
  · exact congrArg Host.Outcome.next (replaceFirst_mapEngine SyncState.swap id id id _ _ s)
  · exact congrArg Host.Outcome.next (replaceFirst_mapEngine SyncState.swap id id id _ _ s)
  · rfl
  · rfl

/-- The rest of a command from P_IDLE or, in a synchronized state, from the first header byte. -/
theorem continuePoll_swapSync {s : State} (h : s.phase = .idle ∨ s.phase = .hdr1) :
    continuePoll (swapSync s) = mapNext swapSync (continuePoll s) := by
  obtain h | h := h
  · rw [continuePoll_of_idle h, continuePoll_of_idle (s := swapSync s) h]
    rfl
  · rw [continuePoll_of_hdr1 h, continuePoll_of_hdr1 (s := swapSync s) h, fetchHdr1_swapSync]
    exact completePoll_swapSync fun i t ht => ((fetchHdr1_cases s).1.instr i t ht).1

/-- Settles O54: a synchronized command goes on with the fetch of a frame or with nothing, and both follow the
exchange. -/
theorem syncAndSyncCkBehaveTheSame : Obligations.SyncAndSyncCkBehaveTheSame := by
  intro s hi hs
  have hnext := nextCommand_mapEngine SyncState.swap id id id s
  obtain ⟨h, -⟩ | ⟨w, d, h, -⟩ := nextCommand_cases s
  · rw [h] at hnext
    rw [step_of_nextCommand_none hi h, step_of_nextCommand_none (s := swapSync s) hi hnext]
    rfl
  · rw [h] at hnext
    rw [step_of_nextCommand hi h, step_of_nextCommand (s := swapSync s) hi hnext]
    refine (congrArg (andThen · continuePoll) (exec_decodeHost_swapSync w (issueCommand w _))).trans
      (andThen_mapNext fun t ht => continuePoll_swapSync ?_)
    obtain hp | ⟨-, -, hp⟩ := exec_decodeHost_phase (by exact hi) ht
    · exact .inl hp
    · exact .inr (hp.trans (if_neg (by exact hs)))

end Sys2Proof.Machine
end

section
/-! PROOFS. What earlier frames left in S.PB, S.TMO and F.* is never observed (spec/10_state.md R24, R27, R29): a fetch
writes what it uses before it reads it, and every operation that sends or calls writes S.PB first. -/

namespace Sys2Proof.Machine

/-! ### Outcomes that agree but for the leftovers -/

/-- From two states that differ only in the leftovers, `f` ends in the same outcome but for them. -/
def IgnoresLeftovers (f : State → Host.Outcome State Fault Refusal) : Prop :=
  ∀ (pb : Payload) (tmo : Bool) (frame : FrameRegs) (s : State),
    forgetLeftovers (f (withLeftovers pb tmo frame s)) = forgetLeftovers (f s)

theorem eq_withLeftovers {s t : State}
    (h : withLeftovers .none false FrameRegs.reset s = withLeftovers .none false FrameRegs.reset t) :
    s = withLeftovers s.pb s.tmo s.frame t := by
  calc s = withLeftovers s.pb s.tmo s.frame (withLeftovers .none false FrameRegs.reset s) := rfl
    _ = withLeftovers s.pb s.tmo s.frame (withLeftovers .none false FrameRegs.reset t) := by rw [h]
    _ = withLeftovers s.pb s.tmo s.frame t := rfl

theorem forgetLeftovers_andThen {o o' : Host.Outcome State Fault Refusal}
    {f : State → Host.Outcome State Fault Refusal} (h : forgetLeftovers o = forgetLeftovers o')
    (hf : ∀ t, o' = .next t → ∀ pb tmo frame,
      forgetLeftovers (f (withLeftovers pb tmo frame t)) = forgetLeftovers (f t)) :
    forgetLeftovers (andThen o f) = forgetLeftovers (andThen o' f) := by
  cases o' with
  | next t =>
    cases o with
    | next u =>
      have hu : u = withLeftovers u.pb u.tmo u.frame t := eq_withLeftovers (Host.Outcome.next.inj h)
      rw [hu]
      exact hf t rfl _ _ _
    | fault r => cases h
    | refused r => cases h
  | fault r =>
    cases o with
    | next u => cases h
    | fault r' => cases h; rfl
    | refused r' => cases h
  | refused r =>
    cases o with
    | next u => cases h
    | fault r' => cases h
    | refused r' => cases h; rfl

/-- What becomes of the leftovers is not told from the outcome without them. -/
theorem forgetLeftovers_mapEngine (fp : Payload → Payload) (ft : Bool → Bool) (ff : FrameRegs → FrameRegs)
    (o : Host.Outcome State Fault Refusal) :
    forgetLeftovers (mapNext (State.mapEngine id fp ft ff) o) = forgetLeftovers o := by
  cases o with
  | next t => rfl
  | fault r => rfl
  | refused r => rfl

/-- A function that carries the leftovers along ignores them. -/
theorem ignoresLeftovers_of_commutes {f : State → Host.Outcome State Fault Refusal}
    (h : ∀ fp ft ff s, f (s.mapEngine id fp ft ff) = mapNext (State.mapEngine id fp ft ff) (f s)) :
    IgnoresLeftovers f := by
  intro pb tmo frame s
  exact (congrArg forgetLeftovers (h (fun _ => pb) (fun _ => tmo) (fun _ => frame) s)).trans
    (forgetLeftovers_mapEngine ..)

/-- A function that commutes with changes of S.TMO and F.*, and does not depend on S.PB, ignores the leftovers. -/
theorem ignoresLeftovers_of_setPb {f : State → Host.Outcome State Fault Refusal}
    (h : ∀ ft ff s, f (s.mapEngine id id ft ff) = mapNext (State.mapEngine id id ft ff) (f s))
    (hpb : ∀ pb s, f (s.setPb pb) = f s) : IgnoresLeftovers f := by
  intro pb tmo frame s
  calc forgetLeftovers (f (withLeftovers pb tmo frame s))
      = forgetLeftovers (mapNext (State.mapEngine id id (fun _ => tmo) (fun _ => frame)) (f (s.setPb pb))) :=
        congrArg forgetLeftovers (h (fun _ => tmo) (fun _ => frame) (s.setPb pb))
    _ = forgetLeftovers (f (s.setPb pb)) := forgetLeftovers_mapEngine ..
    _ = forgetLeftovers (f s) := by rw [hpb]

/-! ### Instructions -/

theorem readOp_ignoresLeftovers (op : OpCode) (addr : RegAddr) : IgnoresLeftovers (readOp op addr) :=
  ignoresLeftovers_of_setPb (fun ft ff => readOp_mapEngine id ft ff op addr) fun _ _ => rfl

theorem writeOp_ignoresLeftovers (op : OpCode) (addr : RegAddr) (pl : Payload) :
    IgnoresLeftovers (writeOp op addr pl) :=
  ignoresLeftovers_of_setPb (fun ft ff => writeOp_mapEngine id ft ff op addr pl) fun _ _ => rfl

theorem replaceFirst_ignoresLeftovers (old new : Option HandlerId) :
    IgnoresLeftovers fun s => .next (replaceFirst old new s) :=
  ignoresLeftovers_of_commutes fun fp ft ff s => congrArg Host.Outcome.next (replaceFirst_mapEngine id fp ft ff old new s)

theorem desync_ignoresLeftovers (form : DesyncForm) (cause : Cause) :
    IgnoresLeftovers fun s => .next (desync form cause s) :=
  ignoresLeftovers_of_commutes fun fp ft ff s =>
    congrArg Host.Outcome.next (desync_mapEngine id fp ft ff (fun _ => Iff.rfl) form cause s)

/-- Every instruction writes S.PB before it uses it, and none looks at S.TMO or F.*. -/
theorem exec_ignoresLeftovers (i : Instr) : IgnoresLeftovers (exec i) := by
  cases i with
  | syncreq => exact fun _ _ _ _ => rfl
  | syncckreq => exact fun _ _ _ _ => rfl
  | discard b => exact fun _ _ _ _ => rfl
  | rd8 addr => exact readOp_ignoresLeftovers 0 addr
  | rd16 addr => exact readOp_ignoresLeftovers 1 addr
  | rd32 addr => exact readOp_ignoresLeftovers 2 addr
  | rdmb addr => exact readOp_ignoresLeftovers 3 addr
  | wr8 addr v => exact writeOp_ignoresLeftovers 4 addr (.u8 v)
  | wr16 addr v => exact writeOp_ignoresLeftovers 5 addr (.u16 v)
  | wr32 addr v => exact writeOp_ignoresLeftovers 6 addr (.u32 v)
  | wrmb addr data => exact writeOp_ignoresLeftovers 7 addr (mbOfBytes data)
  | rsvd8to15 o addr => exact fun _ _ _ _ => rfl
  | rsvd16to31 o addr => exact fun _ _ _ _ => rfl
  | rsvd32to63 o addr => exact fun _ _ _ _ => rfl
  | resync => exact desync_ignoresLeftovers .triggered .protocolViolation
  | reset =>
    intro pb tmo frame s
    rw [exec_reset, exec_reset]
    rfl
  | poll => exact ignoresLeftovers_of_commutes fun fp ft ff => exec_poll_mapEngine id fp ft ff fun _ => Iff.rfl
  | pending => exact ignoresLeftovers_of_commutes fun fp ft ff => exec_pending_mapEngine id fp ft ff
  | register h => exact replaceFirst_ignoresLeftovers none (some h)
  | unregister h => exact replaceFirst_ignoresLeftovers (some h) none
  | hostIllegal5 => exact fun _ _ _ _ => rfl
  | hostIllegal6to7 c => exact fun _ _ _ _ => rfl

/-! ### Fetches -/

/-- Two fetches give the same instruction or the same cause, in states that differ only in the leftovers. -/
def SameFetch (f f' : Fetched) : Prop :=
  ∃ pb tmo frame, f' = f.map (withLeftovers pb tmo frame)

theorem SameFetch.instr (i : Instr) (s : State) (pb : Payload) (tmo : Bool) (frame : FrameRegs) :
    SameFetch (.instr i s) (.instr i (withLeftovers pb tmo frame s)) := ⟨pb, tmo, frame, rfl⟩

theorem SameFetch.trap (c : Cause) (s : State) (pb : Payload) (tmo : Bool) (frame : FrameRegs) :
    SameFetch (.trap c s) (.trap c (withLeftovers pb tmo frame s)) := ⟨pb, tmo, frame, rfl⟩

theorem rxRead_withLeftovers {s t : State} {r : RxAnswer} (h : rxRead s = (r, t)) (pb : Payload) (tmo : Bool)
    (frame : FrameRegs) : rxRead (withLeftovers pb tmo frame s) = (r, withLeftovers pb t.tmo frame t) :=
  rxRead_mapEngine id (fun _ => pb) (fun _ => tmo) (fun _ => frame) h

theorem frame_of_rxRead {s t : State} {r : RxAnswer} (h : rxRead s = (r, t)) : t.frame = s.frame := by
  have hf := (rxRead_onlyReads s).2.1
  rwa [h] at hf

theorem FrameRegs.append_append_singleton (f : FrameRegs) (b : Byte) (bytes : List Byte) :
    (f.append [b]).append bytes = f.append (b :: bytes) := by
  simp [FrameRegs.append, memWrite]; omega

/-- The payload bytes read do not depend on the leftovers; they are appended to whatever F.RAW holds. -/
theorem readPayload_withLeftovers (pb : Payload) : ∀ (n : Nat) (tmo : Bool) (frame : FrameRegs) (s : State),
    (∃ t bytes tmo', readPayload n s = .ok t ∧ bytes.length = n ∧ t.frame = s.frame.append bytes ∧
      readPayload n (withLeftovers pb tmo frame s) = .ok (withLeftovers pb tmo' (frame.append bytes) t)) ∨
    (∃ t tmo' frame', readPayload n s = .error t ∧
      readPayload n (withLeftovers pb tmo frame s) = .error (withLeftovers pb tmo' frame' t))
  | 0, tmo, frame, s => .inl ⟨s, [], tmo, rfl, rfl, rfl, rfl⟩
  | n + 1, tmo, frame, s => by
    rcases h : rxRead s with ⟨b | _, t⟩
    · rw [readPayload_of_byte h, readPayload_of_byte (rxRead_withLeftovers h pb tmo frame), ← frame_of_rxRead h]
      obtain ⟨u, bytes, tmo', hu, hl, hf, hu'⟩ | ⟨u, tmo', frame', hu, hu'⟩ :=
        readPayload_withLeftovers pb n t.tmo (frame.append [b]) (t.setFrame (t.frame.append [b]))
      · refine .inl ⟨u, b :: bytes, tmo', hu, by rw [List.length_cons, hl], ?_, ?_⟩
        · rw [hf, State.setFrame_frame, FrameRegs.append_append_singleton]
        · exact hu'.trans (by rw [FrameRegs.append_append_singleton])
      · exact .inr ⟨u, tmo', frame', hu, hu'⟩
    · rw [readPayload_of_timeout_first h, readPayload_of_timeout_first (rxRead_withLeftovers h pb tmo frame)]
      exact .inr ⟨t, t.tmo, frame, rfl, rfl⟩

theorem payloadNeed_append (f : FrameRegs) (bytes : List Byte) : payloadNeed (f.append bytes) = payloadNeed f := rfl

/-- From F.CNT 0 the bytes put into F.RAW are its first ones. -/
theorem take_raw_append {f : FrameRegs} {bytes : List Byte} (h0 : f.cnt = 0) (hl : bytes.length ≤ 29) :
    (f.append bytes).raw.toList.take bytes.length = bytes := by
  simp only [FrameRegs.append, h0]
  exact take_memWrite f.raw bytes hl

/-- Two frames have the same op and address and take the same number of payload bytes. -/
structure SameHeader (f g : FrameRegs) : Prop where
  op   : g.op = f.op
  addr : g.addr = f.addr
  need : payloadNeed g = payloadNeed f

theorem payloadNeed_congr {f g : FrameRegs} (hop : g.op = f.op) (hlen : g.len = f.len) :
    payloadNeed g = payloadNeed f := by
  unfold payloadNeed
  rw [hop, hlen]

theorem fetchData_withLeftovers {s : State} {frame : FrameRegs} (h : SameHeader s.frame frame) (hs : s.frame.cnt = 0)
    (hf : frame.cnt = 0) (hn : payloadNeed s.frame ≤ 29) (pb : Payload) (tmo : Bool) :
    SameFetch (fetchData s) (fetchData (withLeftovers pb tmo frame s)) := by
  have hneed := h.need
  obtain ⟨t, bytes, tmo', ht, hl, hframe, ht'⟩ | ⟨t, tmo', frame', ht, ht'⟩ :=
    readPayload_withLeftovers pb (payloadNeed s.frame) tmo frame s
  · have hraw : t.frame.raw.toList.take (payloadNeed t.frame) = bytes := by
      rw [hframe, payloadNeed_append, ← hl, take_raw_append hs (hl ▸ hn)]
    have hraw' : (frame.append bytes).raw.toList.take (payloadNeed (frame.append bytes)) = bytes := by
      rw [payloadNeed_append, hneed, ← hl, take_raw_append hf (hl ▸ hn)]
    have hop : (frame.append bytes).op = t.frame.op := h.op.trans (by rw [hframe]; rfl)
    have haddr : (frame.append bytes).addr = t.frame.addr := h.addr.trans (by rw [hframe]; rfl)
    rw [fetchData_of_ok (t := t) (by rw [hs]; exact ht), hraw,
      fetchData_of_ok (s := withLeftovers pb tmo frame s) (t := withLeftovers pb tmo' (frame.append bytes) t)
        (by simp only [withLeftovers, hf, hneed]; exact ht')]
    simp only [withLeftovers, hraw', hop, haddr]
    exact .instr _ t pb tmo' (frame.append bytes)
  · rw [fetchData_of_error (t := t) (by rw [hs]; exact ht),
      fetchData_of_error (s := withLeftovers pb tmo frame s) (t := withLeftovers pb tmo' frame' t)
        (by simp only [withLeftovers, hf, hneed]; exact ht')]
    exact .trap .timeout t pb tmo' frame'

theorem startPayload_withLeftovers {s : State} {frame : FrameRegs} (h : SameHeader s.frame frame)
    (hn : payloadNeed s.frame ≤ 29) (pb : Payload) (tmo : Bool) :
    SameFetch (startPayload s) (startPayload (withLeftovers pb tmo frame s)) :=
  fetchData_withLeftovers (s := (s.setPhase .data).setFrame { s.frame with cnt := 0 })
    (frame := { frame with cnt := 0 }) ⟨h.op, h.addr, h.need⟩ rfl rfl hn pb tmo

/-- Whatever F.OP is, a length byte of at most 29 leaves at most 29 payload bytes to read. -/
theorem payloadNeed_le {f : FrameRegs} (h : f.len.toNat ≤ 29) : payloadNeed f ≤ 29 := by
  unfold payloadNeed
  split
  · exact h
  · exact (fixedPayload_le f.op).trans (by decide)

theorem fetchLen_withLeftovers {s : State} {frame : FrameRegs} (hop : frame.op = s.frame.op)
    (haddr : frame.addr = s.frame.addr) (pb : Payload) (tmo : Bool) :
    SameFetch (fetchLen s) (fetchLen (withLeftovers pb tmo frame s)) := by
  rcases h : rxRead s with ⟨n | _, t⟩
  · rw [fetchLen_of_byte h, fetchLen_of_byte (rxRead_withLeftovers h pb tmo frame)]
    rw [← frame_of_rxRead h] at hop haddr
    split
    · exact .trap .oversizeLength (t.setFrame { t.frame with len := n }) pb t.tmo { frame with len := n }
    next hn =>
      exact startPayload_withLeftovers (s := t.setFrame { t.frame with len := n }) (frame := { frame with len := n })
        ⟨hop, haddr, payloadNeed_congr hop rfl⟩ (payloadNeed_le (Nat.not_lt.mp hn)) pb t.tmo
  · rw [fetchLen_of_timeout h, fetchLen_of_timeout (rxRead_withLeftovers h pb tmo frame)]
    exact .trap .timeout t pb t.tmo frame

/-- The decode of the header and the payload clear leave S.PB, F.OP and F.ADDR the same. -/
theorem headerDecoded_withLeftovers {s : State} {frame : FrameRegs} (h1 : frame.b1 = s.frame.b1)
    (h2 : frame.b2 = s.frame.b2) (pb : Payload) (tmo : Bool) :
    ∃ pb' frame', frame'.op = (headerDecoded s).frame.op ∧ frame'.addr = (headerDecoded s).frame.addr ∧
      headerDecoded (withLeftovers pb tmo frame s) = withLeftovers pb' tmo frame' (headerDecoded s) :=
  ⟨_, { frame with op := headerOp frame.b1, addr := headerAddr frame.b1 frame.b2 }, by rw [h1]; rfl,
    by rw [h1, h2]; rfl, rfl⟩

theorem acceptHeader_withLeftovers {s : State} {frame : FrameRegs} (h1 : frame.b1 = s.frame.b1)
    (h2 : frame.b2 = s.frame.b2) (pb : Payload) (tmo : Bool) :
    SameFetch (acceptHeader s) (acceptHeader (withLeftovers pb tmo frame s)) := by
  obtain ⟨pb', frame', hop, haddr, hdecoded⟩ := headerDecoded_withLeftovers h1 h2 pb tmo
  rw [acceptHeader_eq, acceptHeader_eq, hdecoded, show (withLeftovers pb tmo frame s).frame = frame from rfl, h1, h2]
  split
  · exact fetchLen_withLeftovers (s := (headerDecoded s).setPhase .len) hop haddr pb' tmo
  next h7 =>
    split
    · exact .instr _ (headerDecoded s) pb' tmo frame'
    · have hneed : payloadNeed (headerDecoded s).frame = fixedPayload (headerOp s.frame.b1) := payloadNeed_of_ne h7
      have hneed' : payloadNeed frame' = fixedPayload (headerOp s.frame.b1) :=
        (payloadNeed_of_ne (by rw [hop]; exact h7)).trans (by rw [hop]; rfl)
      exact startPayload_withLeftovers ⟨hop, haddr, hneed'.trans hneed.symm⟩
        (hneed.trans_le ((fixedPayload_le _).trans (by decide))) pb' tmo

theorem fetchHdr2_withLeftovers {s : State} {frame : FrameRegs} (h1 : frame.b1 = s.frame.b1) (pb : Payload)
    (tmo : Bool) : SameFetch (fetchHdr2 s) (fetchHdr2 (withLeftovers pb tmo frame s)) := by
  rcases h : rxRead s with ⟨b2 | _, t⟩
  · rw [← frame_of_rxRead h] at h1
    rw [fetchHdr2_of_byte h, fetchHdr2_of_byte (rxRead_withLeftovers h pb tmo frame),
      show (withLeftovers pb t.tmo frame t).frame = frame from rfl, h1]
    split
    · exact .instr .resync (t.setFrame { t.frame with b2 := b2 }) pb t.tmo _
    · exact acceptHeader_withLeftovers (s := t.setFrame { t.frame with b2 := b2 }) (frame := { frame with
        b2 := b2 }) h1 rfl pb t.tmo
  · rw [fetchHdr2_of_timeout h, fetchHdr2_of_timeout (rxRead_withLeftovers h pb tmo frame)]
    exact .trap .timeout t pb t.tmo frame

theorem fetchHdr1_withLeftovers (pb : Payload) (tmo : Bool) (frame : FrameRegs) (s : State) :
    SameFetch (fetchHdr1 s) (fetchHdr1 (withLeftovers pb tmo frame s)) := by
  rcases h : rxRead s with ⟨b1 | _, t⟩
  · rw [fetchHdr1_of_byte h, fetchHdr1_of_byte (rxRead_withLeftovers h pb tmo frame)]
    exact fetchHdr2_withLeftovers (s := (t.setFrame { t.frame with b1 := b1 }).setPhase .hdr2)
      (frame := { frame with b1 := b1 }) rfl pb t.tmo
  · rw [fetchHdr1_of_timeout h, fetchHdr1_of_timeout (rxRead_withLeftovers h pb tmo frame)]
    exact .trap .timeout t pb t.tmo frame

theorem fetchSyncByte_withLeftovers (pb : Payload) (tmo : Bool) (frame : FrameRegs) (s : State) :
    SameFetch (fetchSyncByte s) (fetchSyncByte (withLeftovers pb tmo frame s)) := by
  rcases h : rxRead s with ⟨b | _, t⟩
  · rw [fetchSyncByte_of_byte h, fetchSyncByte_of_byte (rxRead_withLeftovers h pb tmo frame)]
    exact .instr (decodeSyncByte b) t pb t.tmo frame
  · rw [fetchSyncByte_of_timeout h, fetchSyncByte_of_timeout (rxRead_withLeftovers h pb tmo frame)]
    exact .trap .timeout t pb t.tmo frame

/-! ### A command -/

theorem completePoll_sameFetch {f f' : Fetched} (h : SameFetch f f') :
    forgetLeftovers (completePoll f') = forgetLeftovers (completePoll f) := by
  obtain ⟨pb, tmo, frame, rfl⟩ := h
  cases f with
  | instr i s => exact forgetLeftovers_andThen (exec_ignoresLeftovers i pb tmo frame s) fun t _ _ _ _ => rfl
  | trap cause s =>
    exact forgetLeftovers_andThen (f := fun t => .next (endPoll t)) (desync_ignoresLeftovers .triggered cause pb tmo frame s)
      fun t _ _ _ _ => rfl

/-- The rest of a command from P_IDLE or from a poll's first read. -/
theorem continuePoll_withLeftovers {s : State} (h : s.phase = .idle ∨ s.phase = .syncByte ∨ s.phase = .hdr1)
    (pb : Payload) (tmo : Bool) (frame : FrameRegs) :
    forgetLeftovers (continuePoll (withLeftovers pb tmo frame s)) = forgetLeftovers (continuePoll s) := by
  obtain h | h | h := h
  · rw [continuePoll_of_idle h, continuePoll_of_idle (s := withLeftovers pb tmo frame s) h]
    rfl
  · rw [continuePoll_of_syncByte h, continuePoll_of_syncByte (s := withLeftovers pb tmo frame s) h]
    exact completePoll_sameFetch (fetchSyncByte_withLeftovers pb tmo frame s)
  · rw [continuePoll_of_hdr1 h, continuePoll_of_hdr1 (s := withLeftovers pb tmo frame s) h]
    exact completePoll_sameFetch (fetchHdr1_withLeftovers pb tmo frame s)

/-- Settles O55: the command, the fetch and the instruction each ignore the leftovers they are given. -/
theorem leftoversAreNeverObserved : Obligations.LeftoversAreNeverObserved := by
  intro s pb tmo frame hi
  have hnext := nextCommand_mapEngine id (fun _ => pb) (fun _ => tmo) (fun _ => frame) s
  obtain ⟨h, -⟩ | ⟨w, d, h, -⟩ := nextCommand_cases s
  · rw [h] at hnext
    rw [step_of_nextCommand_none hi h, step_of_nextCommand_none (s := withLeftovers pb tmo frame s) hi hnext]
    rfl
  · rw [h] at hnext
    rw [step_of_nextCommand hi h, step_of_nextCommand (s := withLeftovers pb tmo frame s) hi hnext]
    refine forgetLeftovers_andThen (exec_ignoresLeftovers (decodeHost w) pb tmo frame (issueCommand w _))
      fun t ht => continuePoll_withLeftovers ?_
    obtain hp | ⟨-, -, hp⟩ := exec_decodeHost_phase (by exact hi) ht
    · exact .inl hp
    · refine .inr ?_
      rw [hp]
      split
      · exact .inl rfl
      · exact .inr rfl

end Sys2Proof.Machine
end

section
/-! PROOFS. What one host command can do from P_IDLE, said once (spec/00_scope.md R13): what becomes of the table, which items
the observation gains, and how S.SYNC moves; then the invariant and the bounds that follow. -/

namespace Sys2Proof.Machine

/-! ### The items a command appends -/

/-- The items that follow a command in the observation: the answers to RxPending, the reads, the handler calls, the bytes
sent, and the result. -/
def commandItems (pends : List Bool) (reads calls : List TraceItem) (bytes : List Byte) (r : CommandResult) :
    List TraceItem :=
  pends.map .pend ++ (reads ++ (calls ++ (bytes.map .tx ++ [.result r])))

theorem TraceItem.isCall_of_isRead {x : TraceItem} (h : x.isRead = true) : x.isCall = false := by
  cases x with
  | call => cases h
  | _ => rfl

theorem TraceItem.issued_of_isRead {x : TraceItem} (h : x.isRead = true) : x.issued = none := by
  cases x with
  | command => cases h
  | _ => rfl

theorem TraceItem.issued_of_isCall {x : TraceItem} (h : x.isCall = true) : x.issued = none := by
  cases x with
  | command => cases h
  | _ => rfl

section
variable {reads calls : List TraceItem} (hr : ∀ x ∈ reads, x.isRead = true) (hc : ∀ x ∈ calls, x.isCall = true)
  {pends : List Bool} {bytes : List Byte} {r : CommandResult}
include hr hc

theorem filter_isRead_commandItems : (commandItems pends reads calls bytes r).filter (·.isRead) = reads := by
  have hcalls : calls.filter (·.isRead) = [] := List.filter_eq_nil_iff.mpr fun x hx hread => by
    have hcall := hc x hx
    rw [TraceItem.isCall_of_isRead hread] at hcall
    cases hcall
  simp only [commandItems, List.filter_append, hcalls, List.filter_eq_self.mpr hr, List.filter_map]
  simp [Function.comp_def, TraceItem.isRead]

theorem filter_isCall_commandItems : (commandItems pends reads calls bytes r).filter (·.isCall) = calls := by
  have hreads : reads.filter (·.isCall) = [] := List.filter_eq_nil_iff.mpr fun x hx => by
    simp [TraceItem.isCall_of_isRead (hr x hx)]
  simp only [commandItems, List.filter_append, hreads, List.filter_eq_self.mpr hc, List.filter_map]
  simp [Function.comp_def, TraceItem.isCall]

theorem sentBytes_commandItems : sentBytes (commandItems pends reads calls bytes r) = bytes := by
  have hpends : sentBytes (pends.map .pend) = [] := by simp [sentBytes, TraceItem.sent]
  simp only [commandItems, sentBytes_append, hpends, sentBytes_of_reads hr, sentBytes_of_calls hc, sentBytes_tx]
  simp [sentBytes, TraceItem.sent]

/-- No item after the command is a command. -/
theorem issued_of_mem_commandItems {x : TraceItem} (hx : x ∈ commandItems pends reads calls bytes r) :
    x.issued = none := by
  simp only [commandItems, List.mem_append, List.mem_map, List.mem_singleton] at hx
  obtain ⟨b, -, rfl⟩ | hx | hx | ⟨b, -, rfl⟩ | rfl := hx
  · rfl
  · exact TraceItem.issued_of_isRead (hr x hx)
  · exact TraceItem.issued_of_isCall (hc x hx)
  · rfl
  · rfl

end

/-! ### What one command can do -/

/-- What a command makes of the table (R172 to R174, R117). -/
inductive TableChange : Instr → Vector (Option HandlerId) 16 → Vector (Option HandlerId) 16 → Prop
  | cleared (slots) : TableChange .reset slots (Vector.replicate 16 none)
  | filled (h : HandlerId) (slots) (i : Fin 16) : TableChange (.register h) slots (slots.set i (some h))
  | emptied (h : HandlerId) (slots) (i : Fin 16) : TableChange (.unregister h) slots (slots.set i none)
  | kept {i : Instr} (slots) (hi : i ≠ .reset) : TableChange i slots slots

/-- How a command moves S.SYNC, with what it reads, calls and sends (R119). -/
inductive SyncChange (s t : State) (reads calls : List TraceItem) (bytes : List Byte) : Prop
  | kept (h : t.sync = s.sync)
  | flooded (h : t.sync = .unsync) (hcalls : calls = []) (hbytes : bytes = List.replicate 34 0xFF)
  | synced (hs : s.sync = .unsync) (h : t.sync = .sync) (hreads : reads = [.rx 0xAA]) (hbytes : bytes = [0x55])
  | syncedCk (hs : s.sync = .unsync) (h : t.sync = .syncCk) (hreads : reads = [.rx 0xA5]) (hbytes : bytes = [0x55])

/-- What the observation gains from s to t. -/
structure CommandOutput (s t : State) (pends : List Bool) (reads calls : List TraceItem) (bytes : List Byte)
    (r : CommandResult) : Prop where
  trace     : t.trace = s.trace ++ commandItems pends reads calls bytes r
  isReads   : ∀ x ∈ reads, x.isRead = true
  readCount : reads.length ≤ 32
  isCalls   : ∀ x ∈ calls, x.isCall = true
  callCount : calls.length ≤ 16
  byteCount : bytes.length ≤ 34
  sync      : SyncChange s t reads calls bytes

/-- What the command i can do from the state s, in which it has been issued, to the state t, in which it has ended. -/
structure CommandEffect (i : Instr) (s t : State) : Prop where
  phase     : t.phase = .idle
  hostQueue : t.hostQueue = s.hostQueue
  goesOn    : t.hostGoesOn = s.hostGoesOn
  count     : s.frame.cnt ≤ 29 → t.frame.cnt ≤ 29
  quiet     : (s.sync ≠ .unsync → s.tmo = false) → t.sync ≠ .unsync → t.tmo = false
  table     : TableChange i s.slots t.slots
  output    : ∃ pends reads calls bytes r, CommandOutput s t pends reads calls bytes r

/-- A command that changes the table at most, and neither reads nor calls nor sends. -/
theorem CommandEffect.of_silent {i : Instr} {s t : State} {pends : List Bool} {r : CommandResult}
    (hphase : t.phase = .idle) (hqueue : t.hostQueue = s.hostQueue) (hgoes : t.hostGoesOn = s.hostGoesOn)
    (hframe : t.frame = s.frame) (hsync : t.sync = s.sync) (htmo : t.tmo = s.tmo) (htable : TableChange i s.slots t.slots)
    (htrace : t.trace = s.trace ++ (pends.map .pend ++ [.result r])) : CommandEffect i s t where
  phase := hphase
  hostQueue := hqueue
  goesOn := hgoes
  count := fun h => by rw [hframe]; exact h
  quiet := fun h hs => by rw [htmo]; exact h (by rw [← hsync]; exact hs)
  table := htable
  output := ⟨pends, [], [], [], r, htrace, by simp, by simp, by simp, by simp, by simp, .kept hsync⟩

theorem reset_effect {s t : State} (h : exec .reset s = .next t) : CommandEffect .reset s t := by
  rw [exec_reset] at h
  cases h
  exact {
    phase := rfl
    hostQueue := rfl
    goesOn := rfl
    count := id
    quiet := fun _ h => absurd rfl h
    table := .cleared s.slots
    output := ⟨[], [], [], List.replicate 34 0xFF, .none, by simp [commandItems, floodEvents], by simp, by simp, by simp,
      by simp, by simp, .flooded rfl rfl rfl⟩ }

theorem pending_effect {s t : State} (hi : s.phase = .idle) (h : exec .pending s = .next t) :
    CommandEffect .pending s t := by
  obtain ⟨b, d, hb⟩ := rxPending_cases s
  rw [exec_pending_of_rxPending hb] at h
  cases h
  exact .of_silent (pends := [b]) (r := .pending b) hi rfl rfl rfl rfl rfl (.kept _ (by simp)) (by simp [finishCommand_eq])

theorem illegal_effect {i : Instr} {s : State} (hi : s.phase = .idle) (hr : i ≠ .reset) :
    CommandEffect i s (finishCommand (.code illegalCode) s) :=
  .of_silent (pends := []) (r := .code illegalCode) hi rfl rfl rfl rfl rfl (.kept _ hr) rfl

theorem register_effect {hd : HandlerId} {s t : State} (hi : s.phase = .idle) (h : exec (.register hd) s = .next t) :
    CommandEffect (.register hd) s t := by
  cases h
  obtain ⟨i, -, he⟩ | he := replaceFirst_cases none (some hd) s
  · rw [he]
    exact .of_silent (pends := []) (r := .code (BitVec.ofNat 5 i.val)) hi rfl rfl rfl rfl rfl (.filled hd s.slots i) rfl
  · rw [he]
    exact .of_silent (pends := []) (r := .code 0x10) hi rfl rfl rfl rfl rfl (.kept _ (by simp)) rfl

theorem unregister_effect {hd : HandlerId} {s t : State} (hi : s.phase = .idle)
    (h : exec (.unregister hd) s = .next t) : CommandEffect (.unregister hd) s t := by
  cases h
  obtain ⟨i, -, he⟩ | he := replaceFirst_cases (some hd) none s
  · rw [he]
    exact .of_silent (pends := []) (r := .code (BitVec.ofNat 5 i.val)) hi rfl rfl rfl rfl rfl (.emptied hd s.slots i) rfl
  · rw [he]
    exact .of_silent (pends := []) (r := .code 0x10) hi rfl rfl rfl rfl rfl (.kept _ (by simp)) rfl

/-- A poll that stands at its sync byte, to its end. -/
theorem syncByte_effect {s t : State} (hs : s.sync = .unsync) (h : completePoll (fetchSyncByte s) = .next t) :
    CommandEffect .poll s t := by
  obtain ⟨hslots, hqueue, hgoes, hphase, hframe, r, bytes, htrace, htmo, hway⟩ := completePoll_syncByte_cases h
  have hread : ∀ x ∈ [rxEvent r], x.isRead = true := by cases r <;> simp [rxEvent, TraceItem.isRead]
  have hsync : SyncChange s t [rxEvent r] [] bytes ∧ bytes.length ≤ 34 ∧ (t.sync ≠ .unsync → r ≠ .timeout) := by
    obtain ⟨rfl, rfl, ht⟩ | ⟨rfl, rfl, ht⟩ | ⟨rfl, ht, -⟩ | ⟨hne, -⟩ := hway
    · exact ⟨.synced hs ht rfl rfl, by simp, by simp⟩
    · exact ⟨.syncedCk hs ht rfl rfl, by simp, by simp⟩
    · exact ⟨.kept ht, by simp, fun h => absurd (ht.trans hs) h⟩
    · exact absurd hs hne
  obtain ⟨hchange, hlen, hr⟩ := hsync
  exact {
    phase := hphase
    hostQueue := hqueue
    goesOn := hgoes
    count := fun h => by rw [hframe]; exact h
    quiet := fun _ ht => by
      rw [htmo]
      cases r with
      | byte b => rfl
      | timeout => exact absurd rfl (hr ht)
    table := by rw [hslots]; exact .kept _ (by simp)
    output := ⟨[], [rxEvent r], [], bytes, .none, by simp [commandItems, htrace], hread, by simp, by simp, by simp, hlen,
      hchange⟩ }

/-- A poll that stands at its first header byte, to its end. -/
theorem frame_effect {s t : State} (h : completePoll (fetchHdr1 s) = .next t) : CommandEffect .poll s t := by
  obtain ⟨hfetch, htmo⟩ := fetchHdr1_cases s
  obtain ⟨hslots, hqueue, hgoes, hphase, hcount, reads, calls, bytes, htrace, hr, hrl, hc, hcl, -, hbl, hway⟩ :=
    completePoll_frame_cases hfetch h
  have hchange : SyncChange s t reads calls bytes := by
    obtain ⟨ht, -⟩ | ⟨-, ht, hcalls, hbytes⟩ := hway
    · exact .kept ht
    · exact .flooded ht hcalls hbytes
  have hquiet : t.sync ≠ .unsync → t.tmo = false := fun ht => by
    obtain ⟨hst, hu, hex⟩ | ⟨-, htu, -⟩ := hway
    · obtain ⟨i, u, he⟩ := hex (by rw [← hst]; exact ht)
      exact (hu i u he).trans (htmo i u he)
    · exact absurd htu ht
  exact {
    phase := hphase
    hostQueue := hqueue
    goesOn := hgoes
    count := hcount
    quiet := fun _ => hquiet
    table := by rw [hslots]; exact .kept _ (by simp)
    output := ⟨[], reads, calls, bytes, .none, by simp [commandItems, htrace], hr, hrl, hc, hcl, hbl, hchange⟩ }

/-- A POLL whose question has been answered goes on as from the state after the answer. -/
theorem CommandEffect.after_pend {s u t : State} (hsync : u.sync = s.sync) (htmo : u.tmo = s.tmo)
    (hslots : u.slots = s.slots) (hframe : u.frame = s.frame) (hqueue : u.hostQueue = s.hostQueue)
    (hgoes : u.hostGoesOn = s.hostGoesOn) (htrace : u.trace = s.trace ++ [.pend true]) (h : CommandEffect .poll u t) :
    CommandEffect .poll s t := by
  obtain ⟨hp, hq, hg, hc, hquiet, htable, pends, reads, calls, bytes, r, ht, hr, hrl, hcs, hcl, hbl, hchange⟩ := h
  refine ⟨hp, hq.trans hqueue, hg.trans hgoes, hframe ▸ hc, ?_, hslots ▸ htable,
    true :: pends, reads, calls, bytes, r, ?_, hr, hrl, hcs, hcl, hbl, ?_⟩
  · rw [← hsync, ← htmo]; exact hquiet
  · rw [ht, htrace]; simp [commandItems]
  · cases hchange with
    | kept h => exact .kept (h.trans hsync)
    | flooded h hcalls hbytes => exact .flooded h hcalls hbytes
    | synced hs h hreads hbytes => exact .synced (hsync ▸ hs) h hreads hbytes
    | syncedCk hs h hreads hbytes => exact .syncedCk (hsync ▸ hs) h hreads hbytes

/-- A POLL, to its end. -/
theorem poll_effect {s t : State} (hi : s.phase = .idle) (h : andThen (exec .poll s) continuePoll = .next t) :
    CommandEffect .poll s t := by
  obtain ⟨u, hu, hrest⟩ := andThen_eq_next h
  obtain ⟨b, v, hv, hsync, htmo, -, hslots, hframe, hqueue, hgoes, -, -, hend⟩ := exec_poll_cases s
  cases hv.symm.trans hu
  obtain ⟨rfl, htrace, hp⟩ | ⟨rfl, htrace, hp⟩ := hend
  · rw [continuePoll_of_idle (hp.trans hi)] at hrest
    cases hrest
    exact .of_silent (pends := [false]) (r := .none) (hp.trans hi) hqueue hgoes hframe hsync htmo
      (by rw [hslots]; exact .kept _ (by simp)) htrace
  · refine CommandEffect.after_pend hsync htmo hslots hframe hqueue hgoes htrace ?_
    by_cases hs : s.sync = .unsync
    · rw [continuePoll_of_syncByte (hp.trans (if_pos hs))] at hrest
      exact syncByte_effect (hsync.trans hs) hrest
    · rw [continuePoll_of_hdr1 (hp.trans (if_neg hs))] at hrest
      exact frame_effect hrest

/-- Every host command, to its end. -/
theorem command_effect {w : HostWord} {s t : State} (hi : s.phase = .idle)
    (h : andThen (exec (decodeHost w) s) continuePoll = .next t) : CommandEffect (decodeHost w) s t := by
  by_cases hw : decodeHost w = .poll
  · rw [hw] at h ⊢
    exact poll_effect hi h
  obtain ⟨u, hu, hrest⟩ := andThen_eq_next h
  obtain hp | ⟨hpoll, -⟩ := exec_decodeHost_phase hi hu
  · rw [continuePoll_of_idle hp] at hrest
    cases hrest
    unfold decodeHost at hu ⊢
    split at hu
    · exact reset_effect hu
    next hcmd => exact absurd (decodeHost_of_poll (BitVec.eq_of_toNat_eq hcmd)) hw
    · exact pending_effect hi hu
    · exact register_effect hi hu
    · exact unregister_effect hi hu
    · cases hu; exact illegal_effect hi (by simp)
    · cases hu; exact illegal_effect hi (by simp)
  · exact absurd hpoll hw

/-- A step from P_IDLE: no command and no change, or one command, queued or free, to its end. -/
theorem step_cases {s t : State} (hi : s.phase = .idle) (h : step s = .next t) :
    (t = s ∧ s.hostQueue = [] ∧ s.hostGoesOn = false) ∨
    ∃ w d, (s.hostQueue.head? = some w ∨ s.hostQueue = [] ∧ s.hostGoesOn = true) ∧
      CommandEffect (decodeHost w) (issueCommand w { s with hostQueue := s.hostQueue.tail, draws := d }) t := by
  obtain ⟨hn, hq, hg⟩ | ⟨w, d, hn, hw⟩ := nextCommand_cases s
  · rw [step_of_nextCommand_none hi hn] at h
    cases h
    exact .inl ⟨rfl, hq, hg⟩
  · rw [step_of_nextCommand hi hn] at h
    exact .inr ⟨w, d, hw, command_effect (by exact hi) h⟩

end Sys2Proof.Machine
end

section
/-! PROOFS. What follows from `step_cases` for one command: how S.SYNC moves (spec/40_sync.md R119, spec/20_memory.md R59),
which slots change (spec/42_callback_registry.md R174), how many events occur (spec/70_reset_and_hazards.md R326), and
the invariant between commands (spec/10_state.md R34). -/

namespace Sys2Proof.Machine

/-! ### The observation -/

/-- The items a step appends are the command and what it does. -/
theorem CommandOutput.trace_of_issued {s t : State} {w : HostWord} {q : List HostWord} {d : Nat} {pends : List Bool}
    {reads calls : List TraceItem} {bytes : List Byte} {r : CommandResult}
    (h : CommandOutput (issueCommand w { s with hostQueue := q, draws := d }) t pends reads calls bytes r) :
    t.trace = s.trace ++ (.command (decodeHost w) :: commandItems pends reads calls bytes r) := by
  rw [h.trace]
  simp [issueCommand]

theorem sentBytes_command (i : Instr) (items : List TraceItem) : sentBytes (.command i :: items) = sentBytes items := rfl

/-- Settles O17: of the ways a command moves S.SYNC, each that changes it is a flood or a handshake. -/
theorem syncChangesOnlyByHandshakeOrFlood : Obligations.SyncChangesOnlyByHandshakeOrFlood := by
  intro s t hi h hne
  obtain ⟨rfl, -⟩ | ⟨w, d, -, he⟩ := step_cases hi h
  · exact absurd rfl hne
  obtain ⟨pends, reads, calls, bytes, r, ho⟩ := he.output
  refine ⟨_, ho.trace_of_issued, ?_⟩
  rw [sentBytes_command, sentBytes_commandItems ho.isReads ho.isCalls]
  cases ho.sync with
  | kept hk => exact absurd hk hne
  | flooded ht _ hb => exact .inl ⟨ht, hb⟩
  | synced hs ht hr hb => exact .inr (.inl ⟨hs, ht, by simp [commandItems, hr], hb⟩)
  | syncedCk hs ht hr hb => exact .inr (.inr ⟨hs, ht, by simp [commandItems, hr], hb⟩)

/-- Settles O47: the only way from a synchronized state to UNSYNC is the flood, before which nobody was called. -/
theorem desyncedCommandCallsNoHandler : Obligations.DesyncedCommandCallsNoHandler := by
  intro s t hi h hs ht
  obtain ⟨rfl, -⟩ | ⟨w, d, -, he⟩ := step_cases hi h
  · exact absurd ht hs
  obtain ⟨pends, reads, calls, bytes, r, ho⟩ := he.output
  obtain ⟨hcalls, hbytes⟩ : calls = [] ∧ bytes = List.replicate 34 0xFF := by
    cases ho.sync with
    | kept hk => exact absurd (hk.symm.trans ht) hs
    | flooded _ hc hb => exact ⟨hc, hb⟩
    | synced hu => exact absurd hu hs
    | syncedCk hu => exact absurd hu hs
  refine ⟨_, ho.trace_of_issued, ?_, ?_⟩
  · rw [sentBytes_command, sentBytes_commandItems ho.isReads ho.isCalls, hbytes]
  · have hnone := filter_isCall_commandItems ho.isReads ho.isCalls (pends := pends) (bytes := bytes) (r := r)
    rw [hcalls, List.filter_eq_nil_iff] at hnone
    rw [hcalls]
    intro x hx
    obtain rfl | hx := List.mem_cons.mp hx
    · rfl
    · exact Bool.eq_false_iff.mpr (hnone x hx)

/-- Settles O51: the reads, the calls and the bytes of a command are those of its items. -/
theorem eventsPerCommandAreBounded : Obligations.EventsPerCommandAreBounded := by
  intro s t hi h
  obtain ⟨rfl, -⟩ | ⟨w, d, -, he⟩ := step_cases hi h
  · exact ⟨[], by simp, by simp, by simp [sentBytes], by simp⟩
  obtain ⟨pends, reads, calls, bytes, r, ho⟩ := he.output
  refine ⟨_, ho.trace_of_issued, ?_, ?_, ?_⟩
  · rw [List.filter_cons_of_neg (by simp [TraceItem.isRead]), filter_isRead_commandItems ho.isReads ho.isCalls]
    exact ho.readCount
  · rw [sentBytes_command, sentBytes_commandItems ho.isReads ho.isCalls]
    exact ho.byteCount
  · rw [List.filter_cons_of_neg (by simp [TraceItem.isCall]), filter_isCall_commandItems ho.isReads ho.isCalls]
    exact ho.callCount

/-! ### The table -/

theorem getElem_set_of_ne {slots : Vector (Option HandlerId) 16} {i j : Fin 16} (v : Option HandlerId) (h : j ≠ i) :
    (slots.set i v)[j] = slots[j] := by
  simp [Fin.val_ne_of_ne h.symm]

/-- A change of the table that is no reset's leaves all slots but one. -/
theorem TableChange.one_slot {i : Instr} {slots slots' : Vector (Option HandlerId) 16} (h : TableChange i slots slots')
    (hi : i ≠ .reset) : ∃ k : Fin 16, ∀ j, j ≠ k → slots'[j] = slots[j] := by
  cases h with
  | cleared => exact absurd rfl hi
  | filled _ _ k => exact ⟨k, fun j hj => getElem_set_of_ne _ hj⟩
  | emptied _ _ k => exact ⟨k, fun j hj => getElem_set_of_ne _ hj⟩
  | kept => exact ⟨0, fun _ _ => rfl⟩

/-- The commands that write the table are CMD 0, 3 and 4 (R95). -/
theorem cmd_of_tableCommand (w : HostWord) :
    (decodeHost w = .reset → w.cmd = 0) ∧ (∀ h, decodeHost w = .register h → w.cmd = 3) ∧
      (∀ h, decodeHost w = .unregister h → w.cmd = 4) := by
  obtain ⟨c, hd⟩ := w
  obtain rfl | rfl | rfl | rfl | rfl | rfl | rfl | rfl := cmd_cases c
  all_goals simp [decodeHost]

/-- Only REGISTER and UNREGISTER, beside RESET, change the table. -/
theorem TableChange.eq_of_cmd {w : HostWord} {slots slots' : Vector (Option HandlerId) 16}
    (h : TableChange (decodeHost w) slots slots') (h0 : w.cmd ≠ 0) (h3 : w.cmd ≠ 3) (h4 : w.cmd ≠ 4) :
    slots' = slots := by
  obtain ⟨hreset, hregister, hunregister⟩ := cmd_of_tableCommand w
  generalize hi : decodeHost w = i at h
  cases h with
  | cleared => exact absurd (hreset hi) h0
  | filled => exact absurd (hregister _ hi) h3
  | emptied => exact absurd (hunregister _ hi) h4
  | kept => rfl

/-- Settles O29: the command that ran is the queue's first word. -/
theorem atMostOneSlotChangesPerCommand : Obligations.AtMostOneSlotChangesPerCommand := by
  intro s t w q hi hq h0 h
  obtain ⟨-, hnil, -⟩ | ⟨v, d, hv, he⟩ := step_cases hi h
  · rw [hnil] at hq; cases hq
  obtain rfl : w = v := by simpa [hq] using hv
  exact ⟨he.table.one_slot fun hr => h0 ((cmd_of_tableCommand w).1 hr), he.table.eq_of_cmd h0⟩

/-! ### The invariant -/

theorem registeredAfter_append (items more : List TraceItem) : ∀ acc,
    registeredAfter acc (items ++ more) = registeredAfter (registeredAfter acc items) more := by
  induction items with
  | nil => intro acc; rfl
  | cons x items ih =>
    intro acc
    cases x with
    | command i => cases i <;> exact ih _
    | _ => exact ih _

/-- Items that are no commands register nobody. -/
theorem registeredAfter_of_not_issued {items : List TraceItem} (h : ∀ x ∈ items, x.issued = none) :
    ∀ acc, registeredAfter acc items = acc := by
  induction items with
  | nil => intro acc; rfl
  | cons x items ih =>
    intro acc
    have hx := h x (by simp)
    have hrest := ih (fun y hy => h y (by simp [hy])) acc
    cases x with
    | command i => cases hx
    | _ => exact hrest

theorem registeredAfter_command {i : Instr} (hi : i ≠ .reset) {h : HandlerId} {acc : List HandlerId} (hm : h ∈ acc) :
    h ∈ registeredAfter acc [.command i] := by
  cases i with
  | reset => exact absurd rfl hi
  | register h' => exact List.mem_cons_of_mem _ hm
  | _ => exact hm

/-- What the table holds after a command was registered, if what it held before was. -/
theorem TableChange.registered {i : Instr} {slots slots' : Vector (Option HandlerId) 16} (h : TableChange i slots slots')
    {acc : List HandlerId} (hacc : ∀ (j : Fin 16) hd, slots[j] = some hd → hd ∈ acc) (j : Fin 16) (hd : HandlerId)
    (hj : slots'[j] = some hd) : hd ∈ registeredAfter acc [.command i] := by
  cases h with
  | cleared => simp at hj
  | filled h' _ k =>
    by_cases hk : j = k
    · subst hk
      obtain rfl : h' = hd := by simpa using hj
      exact List.mem_cons_self
    · rw [getElem_set_of_ne _ hk] at hj
      exact List.mem_cons_of_mem _ (hacc j hd hj)
  | emptied h' _ k =>
    by_cases hk : j = k
    · subst hk; simp at hj
    · rw [getElem_set_of_ne _ hk] at hj
      exact hacc j hd hj
  | kept _ hi => exact registeredAfter_command hi (hacc j hd hj)

/-- Settles O48: each part of the invariant is a part of what one command does. -/
theorem everyStepKeepsInv : Obligations.EveryStepKeepsInv := by
  intro s t hinv h
  obtain ⟨rfl, -⟩ | ⟨w, d, -, he⟩ := step_cases hinv.idle h
  · exact hinv
  obtain ⟨pends, reads, calls, bytes, r, ho⟩ := he.output
  have hreg : registeredSinceReset t.trace =
      registeredAfter (registeredSinceReset s.trace) [.command (decodeHost w)] := by
    calc registeredSinceReset t.trace
        = registeredAfter (registeredAfter (registeredSinceReset s.trace) [.command (decodeHost w)])
            (commandItems pends reads calls bytes r) := by
          rw [← registeredAfter_append, registeredSinceReset, ho.trace_of_issued, registeredAfter_append]; rfl
      _ = registeredAfter (registeredSinceReset s.trace) [.command (decodeHost w)] :=
          registeredAfter_of_not_issued (fun x hx => issued_of_mem_commandItems ho.isReads ho.isCalls hx) _
  exact {
    idle := he.phase
    count := he.count hinv.count
    registered := fun i hd hi => by rw [hreg]; exact he.table.registered hinv.registered i hd hi
    quiet := he.quiet hinv.quiet }

end Sys2Proof.Machine
end

section
/-! PROOFS. Progress: under HANDLER's duty every command ends and keeps the duty (spec/70_reset_and_hazards.md R326), so that
finite and infinite runs go on (R330); a handshake recovers from every state (spec/60_exceptions.md R286); and the frame of
the wire instructions (spec/10_state.md R24, R28, R29). -/

namespace Sys2Proof.Machine

/-! ### Handlers that return -/

theorem HandlersReturn.of_subset {s t : State} (h : HandlersReturn s) (hsub : ∀ r ∈ t.replyScript, r ∈ s.replyScript) :
    HandlersReturn t := fun hm => h (hsub _ hm)

theorem HandlersReturn.of_eq {s t : State} (h : HandlersReturn s) (he : t.replyScript = s.replyScript) :
    HandlersReturn t := h.of_subset fun _ hm => he ▸ hm

/-- The outcome is a next state with HANDLER's duty kept. -/
def Completes (o : Host.Outcome State Fault Refusal) : Prop := ∃ t, o = .next t ∧ HandlersReturn t

theorem readOp_keeps_duty {op : OpCode} {addr : RegAddr} {s : State} (h : HandlersReturn s) :
    Completes (readOp op addr s) := by
  obtain ⟨t, ht⟩ := readOp_completes (op := op) (addr := addr) h
  obtain hf | ⟨as, d, -, -, hn⟩ := readOp_cases op addr s
  · rw [hf] at ht; cases ht
  · exact ⟨_, hn, h.of_subset fun r hr => List.mem_of_mem_drop hr⟩

theorem writeOp_keeps_duty {op : OpCode} {addr : RegAddr} {pl : Payload} {s : State} (h : HandlersReturn s) :
    Completes (writeOp op addr pl s) := by
  obtain ⟨t, ht⟩ := writeOp_completes (op := op) (addr := addr) (pl := pl) h
  obtain hf | ⟨as, d, -, -, hn⟩ := writeOp_cases op addr pl s
  · rw [hf] at ht; cases ht
  · exact ⟨_, hn, h.of_subset fun r hr => List.mem_of_mem_drop hr⟩

theorem desync_replyScript (form : DesyncForm) (cause : Cause) (s : State) :
    (desync form cause s).replyScript = s.replyScript := by
  unfold desync
  split
  · rfl
  · rfl

theorem replaceFirst_replyScript (old new : Option HandlerId) (s : State) :
    (replaceFirst old new s).replyScript = s.replyScript := by
  obtain ⟨i, -, h⟩ | h := replaceFirst_cases old new s
  · rw [h]
  · rw [h]

/-- Every instruction completes if the handlers it calls return. -/
theorem exec_completes (i : Instr) {s : State} (h : HandlersReturn s) : Completes (exec i s) := by
  cases i with
  | rd8 addr => exact readOp_keeps_duty h
  | rd16 addr => exact readOp_keeps_duty h
  | rd32 addr => exact readOp_keeps_duty h
  | rdmb addr => exact readOp_keeps_duty h
  | wr8 addr v => exact writeOp_keeps_duty h
  | wr16 addr v => exact writeOp_keeps_duty h
  | wr32 addr v => exact writeOp_keeps_duty h
  | wrmb addr data => exact writeOp_keeps_duty h
  | syncreq => exact ⟨_, rfl, h⟩
  | syncckreq => exact ⟨_, rfl, h⟩
  | discard b => exact ⟨_, rfl, h⟩
  | rsvd8to15 o addr => exact ⟨_, rfl, h⟩
  | rsvd16to31 o addr => exact ⟨_, rfl, h⟩
  | rsvd32to63 o addr => exact ⟨_, rfl, h⟩
  | resync => exact ⟨_, rfl, h.of_eq (desync_replyScript ..)⟩
  | reset => exact ⟨_, exec_reset s, h⟩
  | poll =>
    obtain ⟨b, t, ht, -, -, -, -, -, -, -, -, hr, -⟩ := exec_poll_cases s
    exact ⟨t, ht, h.of_eq hr⟩
  | pending =>
    obtain ⟨b, d, hb⟩ := rxPending_cases s
    exact ⟨_, exec_pending_of_rxPending hb, h⟩
  | register hd => exact ⟨_, rfl, h.of_eq (replaceFirst_replyScript ..)⟩
  | unregister hd => exact ⟨_, rfl, h.of_eq (replaceFirst_replyScript ..)⟩
  | hostIllegal5 => exact ⟨_, rfl, h⟩
  | hostIllegal6to7 c => exact ⟨_, rfl, h⟩

theorem completePoll_completes {f : Fetched} (h : HandlersReturn f.state) : Completes (completePoll f) := by
  cases f with
  | instr i s =>
    obtain ⟨t, ht, hr⟩ := exec_completes i (s := s) h
    exact ⟨endPoll t, by simp only [completePoll, ht, andThen], hr⟩
  | trap cause s => exact ⟨_, rfl, h.of_eq (desync_replyScript .triggered cause s)⟩

theorem fetchSyncByte_replyScript (s : State) : (fetchSyncByte s).state.replyScript = s.replyScript := by
  obtain ⟨r, d, h⟩ := rxRead_cases s
  cases r with
  | byte b => rw [fetchSyncByte_of_byte h]; rfl
  | timeout => rw [fetchSyncByte_of_timeout h]; rfl

/-- A step from P_IDLE completes under HANDLER's duty. -/
theorem step_completes {s : State} (hi : s.phase = .idle) (h : HandlersReturn s) : Completes (step s) := by
  obtain ⟨hn, -⟩ | ⟨w, d, hn, -⟩ := nextCommand_cases s
  · exact ⟨s, step_of_nextCommand_none hi hn, h⟩
  · obtain ⟨t, ht, hr⟩ := exec_completes (decodeHost w)
      (s := issueCommand w { s with hostQueue := s.hostQueue.tail, draws := d }) h
    rw [step_of_nextCommand hi hn, ht]
    simp only [andThen]
    obtain hp | ⟨-, -, hp⟩ := exec_decodeHost_phase (by exact hi) ht
    · exact ⟨t, continuePoll_of_idle hp, hr⟩
    · split at hp
      · rw [continuePoll_of_syncByte hp]
        exact completePoll_completes (hr.of_eq (fetchSyncByte_replyScript t))
      · rw [continuePoll_of_hdr1 hp]
        exact completePoll_completes (hr.of_eq (fetchHdr1_cases t).1.reads.replyScript)

theorem step_phase {s t : State} (hi : s.phase = .idle) (h : step s = .next t) : t.phase = .idle := by
  obtain ⟨rfl, -⟩ | ⟨w, d, -, he⟩ := step_cases hi h
  · exact hi
  · exact he.phase

/-- Settles O52: the step completes, and where it ends no command is in progress. -/
theorem everyCommandEnds : Obligations.EveryCommandEnds := by
  intro s hi hr
  obtain ⟨t, ht, hrt⟩ := step_completes hi hr
  exact ⟨t, ht, step_phase hi ht, hrt⟩

/-! ### Runs -/

theorem issuedCommands_append (l m : List TraceItem) :
    issuedCommands (l ++ m) = issuedCommands l ++ issuedCommands m := by
  simp [issuedCommands]

/-- A command appends itself, and no other command, to those issued. -/
theorem CommandEffect.issued {w : HostWord} {s t : State} {q : List HostWord} {d : Nat}
    (h : CommandEffect (decodeHost w) (issueCommand w { s with hostQueue := q, draws := d }) t) :
    issuedCommands t.trace = issuedCommands s.trace ++ [decodeHost w] := by
  obtain ⟨pends, reads, calls, bytes, r, ho⟩ := h.output
  have hrest : issuedCommands (commandItems pends reads calls bytes r) = [] :=
    List.filterMap_eq_nil_iff.mpr fun x hx => issued_of_mem_commandItems ho.isReads ho.isCalls hx
  rw [ho.trace_of_issued, issuedCommands_append]
  simpa [issuedCommands, TraceItem.issued] using hrest

/-- One step of a run under HANDLER's duty, where HOST has a command to issue. -/
theorem step_of_run {s : State} (hi : s.phase = .idle) (hr : HandlersReturn s)
    (hcmd : s.hostQueue ≠ [] ∨ s.hostGoesOn = true) :
    ∃ t w, step s = .next t ∧ t.phase = .idle ∧ HandlersReturn t ∧ t.hostQueue = s.hostQueue.tail ∧
      t.hostGoesOn = s.hostGoesOn ∧ issuedCommands t.trace = issuedCommands s.trace ++ [decodeHost w] ∧
      ∀ v, s.hostQueue.head? = some v → v = w := by
  obtain ⟨t, ht, hrt⟩ := step_completes hi hr
  obtain ⟨-, hq, hg⟩ | ⟨w, d, hw, he⟩ := step_cases hi ht
  · simp [hq, hg] at hcmd
  · refine ⟨t, w, ht, he.phase, hrt, he.hostQueue, he.goesOn, he.issued, fun v hv => ?_⟩
    obtain hw | ⟨hnil, -⟩ := hw
    · rw [hv] at hw; exact Option.some.inj hw
    · rw [hnil] at hv; cases hv

theorem run_succ {s t : State} (k : Nat) (h : step s = .next t) : core.run (k + 1) s = core.run k t := by
  have hstep : core.step s = .next t := h
  simp only [Host.Core.run, hstep]

/-- Settles O59, by induction on the commands. -/
theorem everyFiniteRunReachesItsEnd : Obligations.EveryFiniteRunReachesItsEnd := by
  intro s ws
  induction ws generalizing s with
  | nil =>
    intro q hi hr hq
    exact ⟨s, rfl, hi, hr, hq, by simp⟩
  | cons w ws ih =>
    intro q hi hr hq
    obtain ⟨t, v, ht, hti, htr, htq, -, hissued, hv⟩ := step_of_run hi hr (.inl (by simp [hq]))
    obtain rfl : w = v := hv w (by simp [hq])
    obtain ⟨u, hu, hui, hur, huq, hall⟩ := ih t q hti htr (by simp [htq, hq])
    refine ⟨u, ?_, hui, hur, huq, ?_⟩
    · rw [List.length_cons, run_succ _ ht, hu]
    · rw [hall, hissued]; simp

/-- Settles O60, by induction on the number of steps. -/
theorem infiniteRunTakesACommandEveryStep : Obligations.InfiniteRunTakesACommandEveryStep := by
  intro s hi hr hg k
  induction k generalizing s with
  | zero => exact ⟨s, [], rfl, hi, hr, hg, by simp, rfl, by simp, by simp⟩
  | succ k ih =>
    obtain ⟨t, w, ht, hti, htr, htq, htg, hissued, hw⟩ := step_of_run hi hr (.inr hg)
    obtain ⟨u, is, hu, hui, hur, hug, huq, hlen, hall, htake⟩ := ih t hti htr (htg.trans hg)
    refine ⟨u, decodeHost w :: is, ?_, hui, hur, hug, ?_, by simp [hlen], ?_, ?_⟩
    · rw [run_succ _ ht, hu]
    · rw [huq, htq]; simp
    · rw [hall, hissued]; simp
    · rw [htq] at htake
      cases hq : s.hostQueue with
      | nil => simp
      | cons v q =>
        obtain rfl : v = w := hw v (by simp [hq])
        rw [hq] at htake
        simpa using htake

/-! ### Recovery -/

theorem polls_of_queue {s : State} (hi : s.phase = .idle) (h : HandlerId) (q : List HostWord) (p : List Bool)
    (r : List RxAnswer) :
    Polls { s with hostQueue := ⟨1, h⟩ :: q, pendScript := true :: p, rxScript := r } ⟨1, h⟩ q p r :=
  ⟨hi, rfl, rfl, rfl, rfl⟩

/-- Settles O56: the handshake from UNSYNC (R112), before which a synchronized engine reads the escape (R143). -/
theorem handshakeAlwaysRecovers : Obligations.HandshakeAlwaysRecovers := by
  intro s h h' hi
  have hshake := syncReqEntersSync.2.1
  refine ⟨fun hs => ?_, fun hs => ?_⟩
  · have hstep := hshake _ _ _ _ _ (polls_of_queue hi h [] [] [.byte 0xAA]) hs
    exact ⟨_, run_succ 0 hstep, rfl, hi, rfl⟩
  · have hescape := step_of_escape (polls_of_queue hi h [⟨1, h'⟩] [true] [.byte 0xFF, .byte 0xFF, .byte 0xAA]) hs
    refine ⟨_, (run_succ 1 hescape).trans (run_succ 0 (hshake _ ⟨1, h'⟩ [] [] [] ?_ rfl)), rfl, hi, rfl⟩
    exact ⟨hi, rfl, rfl, rfl, rfl⟩

/-! ### The frame of the wire instructions -/

/-- The elements that no wire instruction writes. -/
structure WireFrame (s t : State) : Prop where
  tmo        : t.tmo = s.tmo
  slots      : t.slots = s.slots
  frame      : t.frame = s.frame
  hostQueue  : t.hostQueue = s.hostQueue
  hostGoesOn : t.hostGoesOn = s.hostGoesOn
  pendScript : t.pendScript = s.pendScript
  rxScript   : t.rxScript = s.rxScript

theorem readOp_wireFrame {op : OpCode} {addr : RegAddr} {s t : State} (h : readOp op addr s = .next t) : WireFrame s t := by
  obtain hf | ⟨as, d, -, -, hn⟩ := readOp_cases op addr s
  · rw [hf] at h; cases h
  · cases hn.symm.trans h
    exact ⟨rfl, rfl, rfl, rfl, rfl, rfl, rfl⟩

theorem writeOp_wireFrame {op : OpCode} {addr : RegAddr} {pl : Payload} {s t : State}
    (h : writeOp op addr pl s = .next t) : WireFrame s t := by
  obtain hf | ⟨as, d, -, -, hn⟩ := writeOp_cases op addr pl s
  · rw [hf] at h; cases h
  · cases hn.symm.trans h
    exact ⟨rfl, rfl, rfl, rfl, rfl, rfl, rfl⟩

theorem desync_wireFrame (form : DesyncForm) (cause : Cause) (s : State) : WireFrame s (desync form cause s) := by
  unfold desync
  split
  · exact ⟨rfl, rfl, rfl, rfl, rfl, rfl, rfl⟩
  · exact ⟨rfl, rfl, rfl, rfl, rfl, rfl, rfl⟩

theorem exec_wireFrame {i : Instr} {s t : State} (hi : ∀ w, encode i ≠ .host w) (h : exec i s = .next t) :
    WireFrame s t := by
  cases i with
  | rd8 addr => exact readOp_wireFrame h
  | rd16 addr => exact readOp_wireFrame h
  | rd32 addr => exact readOp_wireFrame h
  | rdmb addr => exact readOp_wireFrame h
  | wr8 addr v => exact writeOp_wireFrame h
  | wr16 addr v => exact writeOp_wireFrame h
  | wr32 addr v => exact writeOp_wireFrame h
  | wrmb addr data => exact writeOp_wireFrame h
  | syncreq => cases h; exact ⟨rfl, rfl, rfl, rfl, rfl, rfl, rfl⟩
  | syncckreq => cases h; exact ⟨rfl, rfl, rfl, rfl, rfl, rfl, rfl⟩
  | discard b => cases h; exact ⟨rfl, rfl, rfl, rfl, rfl, rfl, rfl⟩
  | rsvd8to15 o addr => cases h; exact ⟨rfl, rfl, rfl, rfl, rfl, rfl, rfl⟩
  | rsvd16to31 o addr => cases h; exact ⟨rfl, rfl, rfl, rfl, rfl, rfl, rfl⟩
  | rsvd32to63 o addr => cases h; exact ⟨rfl, rfl, rfl, rfl, rfl, rfl, rfl⟩
  | resync => cases h; exact desync_wireFrame .triggered .protocolViolation s
  | reset => exact absurd rfl (hi _)
  | poll => exact absurd rfl (hi _)
  | pending => exact absurd rfl (hi _)
  | register hd => exact absurd rfl (hi _)
  | unregister hd => exact absurd rfl (hi _)
  | hostIllegal5 => exact absurd rfl (hi _)
  | hostIllegal6to7 c => exact absurd rfl (hi _)

/-- Settles O53: register operations, reserved codes, the escape and the sync bytes write none of these elements. -/
theorem wireInstructionsLeaveTableAndFlag : Obligations.WireInstructionsLeaveTableAndFlag := by
  intro i s t hi h
  obtain ⟨htmo, hslots, hframe, hqueue, hgoes, hpend, hrx⟩ := exec_wireFrame hi h
  exact ⟨htmo, hslots, hframe, hqueue, hgoes, hpend, hrx⟩

end Sys2Proof.Machine
end

section
/-! PROOFS. The callback table (spec/42_callback_registry.md R171 to R173), RDMB (spec/44_response_encoder.md R235, R236), the
reserved codes (spec/43_register_operations.md R208) and handlers that never return (spec/93_implementation_defined.md U13). -/

namespace Sys2Proof.Machine

/-! ### REGISTER and UNREGISTER -/

/-- Settles O27: the slot searched is the first empty one. -/
theorem registerFillsLowestEmptySlot : Obligations.RegisterFillsLowestEmptySlot :=
  ⟨fun _ _ _ hi hlt => congrArg Host.Outcome.next (replaceFirst_of_some (firstSlot_some hi hlt)),
    fun _ _ h => congrArg Host.Outcome.next (replaceFirst_of_none (firstSlot_none h))⟩

/-- Settles O28: the slot searched is the first that holds the handler. -/
theorem unregisterEmptiesLowestMatch : Obligations.UnregisterEmptiesLowestMatch :=
  ⟨fun _ _ _ hi hlt => congrArg Host.Outcome.next (replaceFirst_of_some (firstSlot_some hi hlt)),
    fun _ _ h => congrArg Host.Outcome.next (replaceFirst_of_none (firstSlot_none h))⟩

/-! ### Slot order -/

theorem mem_occupied_iff (slots : Vector (Option HandlerId) 16) (i : Fin 16) (h : HandlerId) :
    (i, h) ∈ occupied slots ↔ slots[i] = some h := by
  simp [occupied]

/-- The occupied slots are a part of the slots in order of their index. -/
theorem occupied_pairwise (slots : Vector (Option HandlerId) 16) :
    ((occupied slots).map Prod.fst).Pairwise (· < ·) := by
  rw [List.pairwise_map, occupied, List.pairwise_filterMap]
  refine (List.pairwise_lt_finRange 16).imp fun {i j} hij x hx y hy => ?_
  obtain ⟨-, -, rfl⟩ := Option.map_eq_some_iff.mp hx
  obtain ⟨-, -, rfl⟩ := Option.map_eq_some_iff.mp hy
  exact hij

/-- Settles O30: the order, and what is in the list. -/
theorem slotOrderIsIncreasingIndex : Obligations.SlotOrderIsIncreasingIndex := fun slots =>
  ⟨occupied_pairwise slots, mem_occupied_iff slots⟩

/-! ### RDMB -/

theorem readResponse_mb (c : Bool) (n : Byte) (d : Vector Byte 29) :
    readResponse c (.mb n d) = if c ∧ n.toNat ≤ 29 then 0x06 :: n :: d.toList.take n.toNat else [0x0F] := by
  cases c with
  | false => simp [readResponse]
  | true =>
    by_cases hn : n.toNat ≤ 29
    · simp [readResponse, readBytes, memRead, hn, Nat.not_lt.mpr hn]
    · simp [readResponse, readBytes, hn, Nat.lt_of_not_le hn]

/-- Settles O38: RDMB is `readOp` of op 3, whose payload stays of kind MB through the calls. -/
theorem readMultibyteAnswersFirstClaim : Obligations.ReadMultibyteAnswersFirstClaim := fun _ hr _ =>
  readCompletes_of_exec_eq_readOp hr rfl fun
    | c, .mb n d, _ => ⟨n, d, rfl, readResponse_mb c n d⟩

/-! ### Reserved codes, and handlers that never return -/

/-- Settles O39: the three ranges share one meaning. -/
theorem reservedOpsAreNaked : Obligations.ReservedOpsAreNaked := fun s _ =>
  ⟨fun _ => congrArg Host.Outcome.next (reservedOp_eq s), fun _ => congrArg Host.Outcome.next (reservedOp_eq s),
    fun _ => congrArg Host.Outcome.next (reservedOp_eq s)⟩

theorem hCall_of_neverReturns {s : State} {q : List HandlerReply} (h : s.replyScript = .neverReturns :: q) (i : Fin 16)
    (hd : HandlerId) (op : OpCode) (addr : RegAddr) : hCall i hd op addr s = none := by
  simp only [hCall, nextReply_scripted h]

section
variable {s : State} {q : List HandlerReply} (h : s.replyScript = .neverReturns :: q) (hne : occupied s.slots ≠ [])
include h hne

theorem readOp_of_neverReturns (op : OpCode) (addr : RegAddr) : readOp op addr s = .fault .handlerNeverReturned := by
  obtain ⟨⟨i, hd⟩, sl, hsl⟩ := List.exists_cons_of_ne_nil hne
  have hnone : dispatchFirst op addr (s.setPb (cleared (kindOf op))) = none := by
    simp only [dispatchFirst, State.setPb_slots, hsl, callFirst]
    rw [hCall_of_neverReturns (q := q) (by exact h)]
  simp only [readOp, hnone]

theorem writeOp_of_neverReturns (op : OpCode) (addr : RegAddr) (pl : Payload) :
    writeOp op addr pl s = .fault .handlerNeverReturned := by
  obtain ⟨⟨i, hd⟩, sl, hsl⟩ := List.exists_cons_of_ne_nil hne
  have hnone : dispatchAll op addr (s.setPb pl) = none := by
    simp only [dispatchAll, State.setPb_slots, hsl, callAll]
    rw [hCall_of_neverReturns (q := q) (by exact h)]
  simp only [writeOp, hnone]

end

/-- Settles O40: each read is `readOp` and each write `writeOp`, and both begin with a call. -/
theorem handlerThatNeverReturnsStopsTheEngine : Obligations.HandlerThatNeverReturnsStopsTheEngine :=
  fun _ _ h hne addr =>
    ⟨readOp_of_neverReturns h hne 0 addr, readOp_of_neverReturns h hne 1 addr, readOp_of_neverReturns h hne 2 addr,
      readOp_of_neverReturns h hne 3 addr, fun v => writeOp_of_neverReturns h hne 4 addr (.u8 v),
      fun v => writeOp_of_neverReturns h hne 5 addr (.u16 v), fun v => writeOp_of_neverReturns h hne 6 addr (.u32 v),
      fun data => writeOp_of_neverReturns h hne 7 addr (mbOfBytes data)⟩

end Sys2Proof.Machine
end

section
/-! PROOFS. A POLL that reads a frame (spec/41_frame_decoder.md R140 to R156): the frame whose bytes decode, and the floods at a
header byte, at the length byte (R141, R142, R148) and at a length above 29 (R149). -/

namespace Sys2Proof

/-- Without the whole header, or without the length byte that a header of op 7 asks for. -/
theorem decodeFrame_missing_cases {bytes : List Byte} {e : DecodeError} (h : decodeFrame bytes = .error e)
    (he : e = .missingHeader ∨ e = .missingLength) :
    (bytes = [] ∧ e = .missingHeader) ∨ (∃ b1, bytes = [b1] ∧ e = .missingHeader) ∨
    (∃ b1 b2, bytes = [b1, b2] ∧ headerOp b1 = 7 ∧ e = .missingLength) := by
  match bytes, h with
  | [], h => cases h; exact .inl ⟨rfl, rfl⟩
  | [b1], h => cases h; exact .inr (.inl ⟨b1, rfl, rfl⟩)
  | b1 :: b2 :: tail, h =>
    have htake : ∀ op addr n rest, takePayload op addr n rest ≠ .error e := by
      intro op addr n rest ht
      unfold takePayload at ht
      split at ht
      · cases ht; simp at he
      · cases ht
    simp only [decodeFrame] at h
    split at h
    · cases h
    split at h
    next h7 =>
      match tail, h with
      | [], h => cases h; exact .inr (.inr ⟨b1, b2, rfl, h7, rfl⟩)
      | n :: rest, h =>
        simp only at h
        split at h
        · cases h; simp at he
        · exact (htake _ _ _ _ h).elim
    next => exact (htake _ _ _ _ h).elim

end Sys2Proof

namespace Sys2Proof.Machine

/-! ### Timeouts before the payload -/

/-- A synchronized POLL that times out at its first header byte (R141). -/
theorem step_of_hdr1_timeout {s : State} {w : HostWord} {q : List HostWord} {p : List Bool} {r : List RxAnswer}
    (h : Polls s w q p (.timeout :: r)) (hs : s.sync ≠ .unsync) :
    step s = .next { polled s q p r (.rxTimeout :: (floodEvents ++ [.result .none])) with
      sync := .unsync, tmo := true } := by
  rw [step_of_polls h, if_neg hs, continuePoll_of_hdr1 rfl, fetchHdr1_of_timeout (rxRead_scripted rfl),
    completePoll_trap_synced (by exact hs)]
  simp [polled, h.idle, tmoOf, rxEvent]

/-- A synchronized POLL that times out at its second header byte (R142). -/
theorem step_of_hdr2_timeout {s : State} {w : HostWord} {q : List HostWord} {p : List Bool} {b1 : Byte}
    {r : List RxAnswer} (h : Polls s w q p (.byte b1 :: .timeout :: r)) (hs : s.sync ≠ .unsync) :
    step s = .next { polled s q p r (.rx b1 :: .rxTimeout :: (floodEvents ++ [.result .none])) with
      sync := .unsync, tmo := true, frame := { s.frame with b1 := b1 } } := by
  rw [step_of_polls h, if_neg hs, continuePoll_of_hdr1 rfl, fetchHdr1_of_byte (rxRead_scripted rfl),
    fetchHdr2_of_timeout (rxRead_scripted rfl), completePoll_trap_synced (by exact hs)]
  simp [polled, h.idle, tmoOf, rxEvent, State.setFrame, State.setPhase]

/-- A synchronized POLL that has read a header of op 7 goes on with the length byte (R147). -/
theorem step_of_op7_header {s : State} {w : HostWord} {q : List HostWord} {p : List Bool} {b1 b2 : Byte}
    {r : List RxAnswer} (h : Polls s w q p (.byte b1 :: .byte b2 :: r)) (hs : s.sync ≠ .unsync) (h7 : headerOp b1 = 7) :
    step s = completePoll (fetchLen ((headerAccepted (polled s q p [] []) b1 b2 r).setPhase .len)) := by
  rw [step_of_synced_header h hs, not_isEscape_of_op (by rw [h7]; decide), if_neg Bool.false_ne_true,
    acceptHeader_headerRead, if_pos h7]

theorem cleared_of_op7 {op : OpCode} (h : op = 7) : cleared (kindOf op) = .mb 0 (Vector.replicate 29 0) := by
  rw [h]; rfl

/-- A synchronized POLL that times out at the length byte (R148). -/
theorem step_of_len_timeout {s : State} {w : HostWord} {q : List HostWord} {p : List Bool} {b1 b2 : Byte}
    {r : List RxAnswer} (h : Polls s w q p (.byte b1 :: .byte b2 :: .timeout :: r)) (hs : s.sync ≠ .unsync)
    (h7 : headerOp b1 = 7) :
    step s = .next { polled s q p r (.rx b1 :: .rx b2 :: .rxTimeout :: (floodEvents ++ [.result .none])) with
      sync := .unsync, tmo := true, pb := .mb 0 (Vector.replicate 29 0),
      frame := { s.frame with b1 := b1, b2 := b2, op := headerOp b1, addr := headerAddr b1 b2 } } := by
  rw [step_of_op7_header h hs h7, fetchLen_of_timeout (rxRead_scripted rfl), completePoll_trap_synced (by exact hs)]
  simp [polled, h.idle, tmoOf, rxEvent, State.setPhase, headerAccepted, headerRead, cleared_of_op7 h7]

/-- Settles O43: the three places of the timeout, by the bytes read before it. -/
theorem headerOrLengthTimeoutFloods : Obligations.HeaderOrLengthTimeoutFloods := by
  intro s w q p bytes r e h hs hdec he
  obtain ⟨rfl, rfl⟩ | ⟨b1, rfl, rfl⟩ | ⟨b1, b2, rfl, h7, rfl⟩ := decodeFrame_missing_cases hdec he
  · exact ⟨_, step_of_hdr1_timeout h hs⟩
  · exact ⟨_, step_of_hdr2_timeout h hs⟩
  · exact ⟨_, step_of_len_timeout h hs h7⟩

/-- Settles O46: the length byte is read after an accepted header of op 7, and refused. -/
theorem oversizeLengthFloods : Obligations.OversizeLengthFloods := by
  intro s w q p b1 b2 n r h hs h7 hn
  rw [step_of_op7_header h hs h7, fetchLen_of_byte (rxRead_scripted rfl), if_pos hn, completePoll_trap_synced (by exact hs)]
  simp [polled, h.idle, tmoOf, rxEvent, State.setPhase, State.setFrame, headerAccepted, headerRead, h7]
  exact cleared_of_op7 rfl

/-! ### A frame that decodes -/

/-- The state after a frame's payload bytes, from the state at their start (R146, R150 to R155). -/
def payloadReceived (s : State) (bytes : List Byte) (r : List RxAnswer) : State :=
  { s with
    phase := .data, rxScript := r,
    frame := { s.frame with raw := memWrite s.frame.raw 0 bytes, cnt := bytes.length },
    trace := s.trace ++ bytes.map .rx }

/-- The poll's end after the instruction i, fetched in the state u. -/
theorem completePoll_instr (i : Instr) (u : State) :
    completePoll (.instr i u) =
      andThen (exec i u) fun t => .next { t with phase := .idle, trace := t.trace ++ [.result .none] } := rfl

/-- A frame without payload is its header (R146). -/
theorem step_of_header_frame {s : State} {w : HostWord} {q : List HostWord} {p : List Bool} {b1 b2 : Byte}
    {r : List RxAnswer} (h : Polls s w q p (.byte b1 :: .byte b2 :: r)) (hs : s.sync ≠ .unsync)
    (he : isEscape b1 b2 = false) (h7 : headerOp b1 ≠ 7) (h0 : fixedPayload (headerOp b1) = 0) :
    step s = completePoll
      (.instr (frameInstr (headerOp b1) (headerAddr b1 b2) []) (headerAccepted (polled s q p [] []) b1 b2 r)) := by
  rw [step_of_synced_header h hs, he, if_neg Bool.false_ne_true, acceptHeader_headerRead, if_neg h7, if_pos h0]

/-- A frame with a fixed payload (R150 to R152). -/
theorem step_of_payload_frame {s : State} {w : HostWord} {q : List HostWord} {p : List Bool} {b1 b2 : Byte}
    {tail : List Byte} {r : List RxAnswer} (h : Polls s w q p (.byte b1 :: .byte b2 :: (tail.map .byte ++ r)))
    (hs : s.sync ≠ .unsync) (he : isEscape b1 b2 = false) (h7 : headerOp b1 ≠ 7)
    (h0 : fixedPayload (headerOp b1) ≠ 0) (hl : tail.length = fixedPayload (headerOp b1)) :
    step s = completePoll (.instr (frameInstr (headerOp b1) (headerAddr b1 b2) tail)
      (payloadReceived (headerAccepted (polled s q p [] []) b1 b2 []) tail r)) := by
  have hneed := payloadNeed_of_ne
    (f := (headerAccepted (polled s q p [] []) b1 b2 (tail.map .byte ++ r)).frame) h7
  rw [step_of_synced_header h hs, he, if_neg Bool.false_ne_true, acceptHeader_of_fixedPayload _ _ _ h7 h0,
    startPayload_of_bytes _ tail r rfl rfl (hneed.trans hl.symm) (hl.trans_le ((fixedPayload_le _).trans (by decide)))]
  rfl

/-- A write-multibyte frame (R148, R153). -/
theorem step_of_wrmb_frame {s : State} {w : HostWord} {q : List HostWord} {p : List Bool} {b1 b2 n : Byte}
    {data : List Byte} {r : List RxAnswer}
    (h : Polls s w q p (.byte b1 :: .byte b2 :: .byte n :: (data.map .byte ++ r))) (hs : s.sync ≠ .unsync)
    (h7 : headerOp b1 = 7) (hn : n.toNat ≤ 29) (hl : data.length = n.toNat) :
    step s = completePoll (.instr (.wrmb (headerAddr b1 b2) data)
      (payloadReceived (lengthAccepted (polled s q p [] []) b1 b2 n []) data r)) := by
  have hneed := payloadNeed_of_eq
    (f := (lengthAccepted (polled s q p [] []) b1 b2 n (data.map .byte ++ r)).frame) h7
  have hinstr : frameInstr (headerOp b1) (headerAddr b1 b2) data = .wrmb (headerAddr b1 b2) data := by rw [h7]; rfl
  rw [step_of_synced_header h hs, not_isEscape_of_op (by rw [h7]; decide), if_neg Bool.false_ne_true,
    acceptHeader_of_legalLength _ _ _ h7 hn,
    startPayload_of_bytes _ data r rfl rfl (hneed.trans hl.symm) (hl.trans_le hn), ← hinstr]
  rfl

/-- The ops of the fixed-size writes are those with a fixed payload. -/
theorem fixedPayload_ne_zero_iff (op : OpCode) : fixedPayload op ≠ 0 ↔ 4 ≤ op.toNat ∧ op.toNat ≤ 6 := by
  revert op; decide

/-- Settles O41: the escape, a frame that is its header, a fixed payload, and a write-multibyte. -/
theorem stepRunsTheDecodedFrame : Obligations.StepRunsTheDecodedFrame := by
  intro s w q p b1 b2 tail r i h hs hdec
  obtain ⟨c1, c2, hb, rfl, rfl, rfl⟩ | ⟨c1, c2, p', hb, he, h7, hl, rfl⟩ | ⟨c1, c2, n, data, hb, h7, hn, hl, rfl⟩ :=
    decodeFrame_cases hdec
  · cases hb
    refine ⟨.hdr2, { s.frame with b1 := 0xFF, b2 := 0xFF }, rfl, rfl, fun hne => absurd rfl hne,
      fun hop => absurd hop (by decide), fun hop => absurd hop (by decide), ?_⟩
    rw [step_of_synced_header h hs, if_pos (by decide), completePoll_instr]
    simp [headerRead, polled]
  · rw [List.append_nil] at hb
    cases hb
    have hne := frameInstr_ne_resync (headerOp b1) (headerAddr b1 b2) tail
    by_cases h0 : fixedPayload (headerOp b1) = 0
    · obtain rfl : tail = [] := List.length_eq_zero_iff.mp (hl.trans h0)
      refine ⟨.hdr2, (headerAccepted s b1 b2 r).frame, rfl, rfl, fun _ => ⟨rfl, rfl⟩,
        fun hop => absurd h0 ((fixedPayload_ne_zero_iff _).mpr hop),
        fun hop => absurd hop h7, ?_⟩
      rw [step_of_header_frame h hs he h7 h0, completePoll_instr, if_neg hne]
      simp [headerAccepted, headerRead, polled]
    · refine ⟨.data, (payloadReceived (headerAccepted s b1 b2 r) tail r).frame, rfl, rfl, fun _ => ⟨rfl, rfl⟩,
        fun _ => ⟨rfl, take_memWrite s.frame.raw tail (hl.trans_le ((fixedPayload_le _).trans (by decide)))⟩,
        fun hop => absurd hop h7, ?_⟩
      rw [step_of_payload_frame h hs he h7 h0 hl, completePoll_instr, if_neg hne]
      simp [payloadReceived, headerAccepted, headerRead, polled]
  · rw [List.append_nil] at hb
    cases hb
    refine ⟨.data, (payloadReceived (lengthAccepted s b1 b2 n r) data r).frame, rfl, rfl, fun _ => ⟨rfl, rfl⟩,
      fun hop => absurd hop.2 (by rw [h7]; decide),
      fun _ => ⟨rfl, hl, take_memWrite s.frame.raw data (hl.trans_le hn)⟩, ?_⟩
    rw [step_of_wrmb_frame h hs h7 hn hl, completePoll_instr, if_neg (by simp)]
    simp [payloadReceived, lengthAccepted, headerAccepted, headerRead, polled]

end Sys2Proof.Machine
end
